-- ==== Sys2Proof/Word.lean ====
section
/-! DEFINITION. The word types of the BMG block (00_scope.md R6, R7, R8). -/

namespace Sys2Proof

/-- A 64-bit value: a bitboard register, STATUS, or what one host access moves (R6 `XLEN`). Bit 0 is
the least significant bit; bit `i` of a bitboard is cell `i = row * 8 + col` (R7). -/
abbrev Word := BitVec 64

/-- A command word CW (R6 `CMDLEN`, R70). -/
abbrev CmdWord := BitVec 32

/-- The width of the result registers CNT and IDX (R6, R24). -/
abbrev Narrow := BitVec 7

/-- A byte offset inside the register window of 0x80 bytes (20_memory.md R50, R51). The type has no
value 0x80 or above: the platform decodes such an access and the block never sees it (R55). -/
abbrev Offset := BitVec 7

end Sys2Proof
end

