-- ==== Sys2Proof/Config.lean ====
section
/-! DEFINITION. The implementation parameters of BMG-1 (00_scope.md R6; 93_implementation_defined.md section 2). A
parameter marked fixed has its value; one marked OPEN is a constant with no body, or is built from one. -/

namespace Sys2Proof.Config

/-- `BOARD_W` and `BOARD_H`: the grid is 8×8 (R6, fixed). -/
def boardSide : Nat := 8

/-- `EXT_STEPS`: run-extension steps of the GEN datapath (R6, fixed at 5; 90_conflicts.md C1). -/
def extSteps : Nat := 5

/-- The bytes of the register window (20_memory.md R50). -/
def windowBytes : Nat := 0x80

/-- OPEN: which multiple of the window's size the platform placed the window at (P1). -/
opaque windowIndex : Nat

/-- `BMG_BASE` (R6, R51; P1): OPEN, "must be a multiple of 0x80", which it is by construction. -/
def bmgBase : Nat := windowBytes * windowIndex

/-- OPEN: how many cycles above one a command of an opcode takes (P2). -/
opaque extraCycles : Nat → Nat

/-- `CMD_LATENCY` (R6, R195; P2): OPEN, at least 1, possibly different for each opcode. No rule depends on it. -/
def cmdLatency (op : Nat) : Nat := 1 + extraCycles op

/-- `HOST_ARBITRATION` (20_memory.md R66; P3): OPEN. At the `n`-th turn the platform takes the next access of the
master this number selects (read modulo the number of masters that still have one). -/
opaque hostArbitration : Nat → Nat

end Sys2Proof.Config
end

