-- ==== Sys2Proof/Syntax.lean ====
section
/-! DEFINITION. The registers a command can name and the thirteen commands of BMG-1, one constructor for each row
of spec/opcode_table.json (30_encoding.md R71, R73). -/

namespace Sys2Proof

/-- The registers with a select code (10_state.md R21, 30_encoding.md R71). Select code 7 is reserved and
names no register. -/
inductive Reg where
  /-- select 0: the mover's bitboard -/
  | M
  /-- select 1: the other side's bitboard -/
  | O
  /-- select 2: the move operand -/
  | X
  /-- select 3: the legal-move set -/
  | L
  /-- select 4: the flip set -/
  | F
  /-- select 5: the scan residue -/
  | S
  /-- select 6: virtual and read-only, `~(M | O)` (R23) -/
  | E
deriving DecidableEq, Repr

/-- The commands (R73). The register operands are the names of R71; a destination E makes the term
ill-formed (`Instr.wellFormed`), as it makes the word illegal (R72). -/
inductive Instr where
  | nop
  | init
  | swap
  | mov (dst src : Reg)
  | clrst
  | popcnt (src : Reg)
  | bitidx (src : Reg)
  | scan
  | gen
  | chk
  /-- CLASS (`class` is a word of Lean's own) -/
  | classify
  | flip
  | apply
deriving DecidableEq, Repr

end Sys2Proof
end

