-- ==== Sys2Proof/WellFormed.lean ====
section
/-! DEFINITION. Which terms of `Instr` are commands of BMG-1 (30_encoding.md R71, R72). -/

namespace Sys2Proof

/-- A register may be a MOV destination iff it has storage: M, O, X, L, F, S (R71, R72 item 3). -/
def Reg.writable : Reg → Bool
  | .E => false
  | .M | .O | .X | .L | .F | .S => true

/-- A command term is well-formed iff its word is legal (R72): every field a term can hold is in range by its
type, but for a MOV destination. -/
def Instr.wellFormed : Instr → Bool
  | .mov dst _ => dst.writable
  | .popcnt _ | .bitidx _ => true
  | .nop | .init | .swap | .clrst | .scan | .gen | .chk | .classify | .flip | .apply => true

end Sys2Proof
end

