-- ==== Sys2Proof/Decode.lean ====
section
/-! DEFINITION. The command encoding CW, from 30_encoding.md R70 to R74: the decoder, total on every CMD write value, and
the encoder. -/

namespace Sys2Proof

/-! ### The fields of a command word (R70) -/

/-- `OP`, bits 3:0. -/
def opField (w : CmdWord) : BitVec 4 := w.extractLsb' 0 4

/-- `SRC`, bits 6:4. -/
def srcField (w : CmdWord) : BitVec 3 := w.extractLsb' 4 3

/-- `DST`, bits 9:7. -/
def dstField (w : CmdWord) : BitVec 3 := w.extractLsb' 7 3

/-- `RSV`, bits 31:10, must be 0. -/
def rsvField (w : CmdWord) : BitVec 22 := w.extractLsb' 10 22

/-- `word = OP | (SRC << 4) | (DST << 7)` (R70). -/
def assemble (op : BitVec 4) (src dst : BitVec 3) : CmdWord :=
  op.setWidth 32 ||| (src.setWidth 32 <<< 4) ||| (dst.setWidth 32 <<< 7)

/-! ### Register select codes (10_state.md R21, R71) -/

/-- The select code of a register. -/
def Reg.code : Reg → BitVec 3
  | .M => 0
  | .O => 1
  | .X => 2
  | .L => 3
  | .F => 4
  | .S => 5
  | .E => 6

/-- The register a select code names; code 7 is reserved. -/
def regOfCode (c : BitVec 3) : Option Reg :=
  match c.toNat with
  | 0 => some .M
  | 1 => some .O
  | 2 => some .X
  | 3 => some .L
  | 4 => some .F
  | 5 => some .S
  | 6 => some .E
  | _ => none

/-! ### Legality (R72) and the decoder -/

/-- The causes of an illegal command, IC1 to IC7 of 60_exceptions.md R171. The block does not record which
one held (R171); the names are the decoder's reasons. -/
inductive IllegalCause where
  /-- IC1: bits 63:32 of the CMD write are not 0 -/
  | highHalf
  /-- IC2: RSV is not 0 -/
  | reservedField
  /-- IC3: OP is 13, 14 or 15 -/
  | opcode
  /-- IC4: MOV with SRC = 7 -/
  | movSource
  /-- IC5: MOV with DST 6 or 7 -/
  | movDestination
  /-- IC6: POPCNT or BITIDX with SRC = 7 or DST ≠ 0 -/
  | countOperand
  /-- IC7: any other opcode with SRC ≠ 0 or DST ≠ 0 -/
  | unusedField
deriving DecidableEq, Repr

/-- A command without operands: SRC and DST must be 0 (R72 item 5). -/
def decodePlain (w : CmdWord) (i : Instr) : Except IllegalCause Instr :=
  if srcField w = 0 ∧ dstField w = 0 then .ok i else .error .unusedField

/-- POPCNT and BITIDX: SRC ≤ 6 and DST = 0 (R72 item 4). -/
def decodeCount (w : CmdWord) (make : Reg → Instr) : Except IllegalCause Instr :=
  match regOfCode (srcField w) with
  | none => .error .countOperand
  | some r => if dstField w = 0 then .ok (make r) else .error .countOperand

/-- MOV: SRC ≤ 6 and DST ≤ 5 (R72 item 3). -/
def decodeMov (w : CmdWord) : Except IllegalCause Instr :=
  match regOfCode (srcField w) with
  | none => .error .movSource
  | some src =>
    match regOfCode (dstField w) with
    | none => .error .movDestination
    | some dst => if dst.writable then .ok (.mov dst src) else .error .movDestination

/-- The decoder of a 32-bit command word (R72, R73), total: every word is one legal command or illegal. Where two causes
hold at once the one reported is the model's choice (DESIGN CHOICE, notes/assumptions/10.md): no register sees it. -/
def decodeWord (w : CmdWord) : Except IllegalCause Instr :=
  if rsvField w = 0 then
    match (opField w).toNat with
    | 0 => decodePlain w .nop
    | 1 => decodePlain w .init
    | 2 => decodePlain w .swap
    | 3 => decodeMov w
    | 4 => decodePlain w .clrst
    | 5 => decodeCount w .popcnt
    | 6 => decodeCount w .bitidx
    | 7 => decodePlain w .scan
    | 8 => decodePlain w .gen
    | 9 => decodePlain w .chk
    | 10 => decodePlain w .classify
    | 11 => decodePlain w .flip
    | 12 => decodePlain w .apply
    | _ => .error .opcode
  else .error .reservedField

/-- Bits 63:32 of a CMD write (10_state.md R27). -/
def highHalf (v : Word) : BitVec 32 := v.extractLsb' 32 32

/-- The command word `w[31:0]` of a CMD write (R27). -/
def lowHalf (v : Word) : CmdWord := v.extractLsb' 0 32

/-- What a 64-bit write to CMD issues (R27, R72 item 1, R171 IC1). -/
def decodeCmd (v : Word) : Except IllegalCause Instr :=
  if highHalf v = 0 then decodeWord (lowHalf v) else .error .highHalf

/-! ### The encoder -/

/-- The opcode number of a command (R73). -/
def Instr.opcode : Instr → BitVec 4
  | .nop => 0
  | .init => 1
  | .swap => 2
  | .mov _ _ => 3
  | .clrst => 4
  | .popcnt _ => 5
  | .bitidx _ => 6
  | .scan => 7
  | .gen => 8
  | .chk => 9
  | .classify => 10
  | .flip => 11
  | .apply => 12

/-- The word of a well-formed command (R70, R73, R74). -/
def encode (i : Instr) : CmdWord :=
  match i with
  | .mov dst src => assemble i.opcode src.code dst.code
  | .popcnt src | .bitidx src => assemble i.opcode src.code 0
  | .nop | .init | .swap | .clrst | .scan | .gen | .chk | .classify | .flip | .apply => assemble i.opcode 0 0

/-- The value a host writes to CMD to issue a command: `zext_64(word)` (R75). -/
def encodeCmd (i : Instr) : Word := (encode i).setWidth 64

/-! ### The pattern table (R74) -/

/-- A row of R74: the bits a word must agree on (`mask`) and their values (`pattern`). -/
structure PatternRow where
  mask : CmdWord
  pattern : CmdWord
deriving DecidableEq, Repr

/-- A word agrees with a row's fixed bits. -/
def PatternRow.holds (r : PatternRow) (w : CmdWord) : Bool := w &&& r.mask == r.pattern

/-- The thirteen rows of R74, in opcode order; the letters `s` and `d` are the bits outside the mask. -/
def patternRows : List PatternRow :=
  [ ⟨0xFFFFFFFF, 0x00⟩, ⟨0xFFFFFFFF, 0x01⟩, ⟨0xFFFFFFFF, 0x02⟩, ⟨0xFFFFFC0F, 0x03⟩, ⟨0xFFFFFFFF, 0x04⟩,
    ⟨0xFFFFFF8F, 0x05⟩, ⟨0xFFFFFF8F, 0x06⟩, ⟨0xFFFFFFFF, 0x07⟩, ⟨0xFFFFFFFF, 0x08⟩, ⟨0xFFFFFFFF, 0x09⟩,
    ⟨0xFFFFFFFF, 0x0A⟩, ⟨0xFFFFFFFF, 0x0B⟩, ⟨0xFFFFFFFF, 0x0C⟩ ]

/-! ### The host's question about a table row -/

/-- The CMD write value that carries `nbits` bits of an instruction: bit 0 of `w` is bit 0 of the write, and every
bit from `nbits` on is 0 (R70: the word is the low half of the write and the high half is 0). -/
def tableWrite (nbits w : Nat) : Word := BitVec.ofNat 64 (w % 2 ^ nbits)

/-- The instruction the decoder reads from the table's bits; none where it rejects them. -/
def decodeTableWord (nbits w : Nat) : Option Instr :=
  match decodeCmd (tableWrite nbits w) with
  | .ok i => some i
  | .error _ => none

end Sys2Proof
end

