-- ==== Sys2Proof/Machine/Bits.lean ====
section
/-! DEFINITION. The primitives on 64-bit values: single bits, population count and bit scan (00_scope.md R7 to R9), and the
byte lanes of 20_memory.md R54. -/

namespace Sys2Proof.Machine

/-- `bit(i) = 1 << i`, the pattern of cell `i` (R7); 0 for an `i` above 63, whose bit is discarded (R8). -/
def bit (i : Nat) : Word := 1#64 <<< i

/-- How many of the bits `0 … n-1` of `v` are 1. -/
def onesBelow (v : Word) : Nat → Nat
  | 0 => 0
  | n + 1 => onesBelow v n + (v.getLsbD n).toNat

/-- `popcount(v)`: the number of 1 bits, 0 to 64 (R9). -/
def popcount (v : Word) : Nat := onesBelow v 64

/-- `neg(v) = (~v + 1) mod 2^64` (R8). -/
def neg (v : Word) : Word := ~~~v + 1

/-- `lsb(v) = v & neg(v)`: the lowest set bit isolated, 0 for 0 (R9). -/
def lsb (v : Word) : Word := v &&& neg v

/-- The first index from `i` on, among `n` of them, whose bit of `v` is 1; `i + n` when there is none. -/
def firstOne (v : Word) : Nat → Nat → Nat
  | 0, i => i
  | n + 1, i => if v.getLsbD i then i else firstOne v n (i + 1)

/-- `ctz(v)`: the index of the lowest set bit, 64 for `v = 0` (R9). -/
def ctz (v : Word) : Nat := firstOne v 64 0

/-- `single(v) = (popcount(v) = 1)` (R9). -/
def single (v : Word) : Bool := popcount v == 1

/-- `EMPTY(M, O) = ~(M | O)`; all 64 bits are cells, so there is nothing more to mask (R9). -/
def empty (m o : Word) : Word := ~~~(m ||| o)

/-- Whether a pair breaks invariant I1, `mover & other == 0` (R11, 60_exceptions.md R173). -/
def overlaps (m o : Word) : Bool := m &&& o != 0

/-- A count or an index as it is held in CNT or IDX (10_state.md R24); every value stored is at most 64. -/
def toNarrow (n : Nat) : Narrow := BitVec.ofNat 7 n

/-- Byte `k` (0 to 7) of a register as a byte-addressed platform presents it: bits `8k+7 … 8k`
(little-endian, 20_memory.md R54). -/
def byteLane (v : Word) (k : Nat) : BitVec 8 := v.extractLsb' (8 * k) 8

end Sys2Proof.Machine
end

