-- ==== Sys2Proof/Machine/Board.lean ====
section
/-! DEFINITION. Directions and edge masks (40_board_masks_control.md R80 to R82), the legal-move function GM with its
datapath and its declarative definition (42_move_generation.md R110, R111), LEGAL (R114), the flip walk FL and the move
function MK (43_flip_and_apply.md R130, R132). -/

namespace Sys2Proof.Machine

/-! ### Directions (R80) -/

/-- The eight directions (R80). N is one row up, to a lower index (92_eei_decisions.md D15). -/
inductive Direction where
  | N | S | E | W | NE | NW | SE | SW
deriving DecidableEq, Repr

/-- All eight; every command uses all of them together (R80). -/
def allDirections : List Direction := [.N, .S, .E, .W, .NE, .NW, .SE, .SW]

/-- The row step `dr` (R80). -/
def rowStep : Direction → Int
  | .N | .NE | .NW => -1
  | .S | .SE | .SW => 1
  | .E | .W => 0

/-- The column step `dc` (R80). -/
def colStep : Direction → Int
  | .W | .NW | .SW => -1
  | .E | .NE | .SE => 1
  | .N | .S => 0

/-- `NOT_COL0`: clears column 0, where a step with `dc = +1` lands when it wraps (R80). -/
def notCol0 : Word := 0xFEFEFEFEFEFEFEFE

/-- `NOT_COL7`: clears column 7, where a step with `dc = -1` lands when it wraps (R80). -/
def notCol7 : Word := 0x7F7F7F7F7F7F7F7F

/-- The shift column of R80's table. -/
def shiftDir (d : Direction) (v : Word) : Word :=
  match d with
  | .N => v >>> 8
  | .S => v <<< 8
  | .E => v <<< 1
  | .W => v >>> 1
  | .NE => v >>> 7
  | .NW => v >>> 9
  | .SE => v <<< 9
  | .SW => v <<< 7

/-- The mask column of R80's table; N and S need none. -/
def edgeMask : Direction → Word
  | .N | .S => 0xFFFFFFFFFFFFFFFF
  | .E | .NE | .SE => notCol0
  | .W | .NW | .SW => notCol7

/-- `sh_d(v)`: one step in direction `d`, the mask applied after the shift (R81, R82). -/
def sh (d : Direction) (v : Word) : Word := shiftDir d v &&& edgeMask d

/-! ### Cells and lines, by rows and columns (R7, R80) -/

/-- The cell `j` steps from cell `e` in direction `d`; none when it is off the board (R80). -/
def cellAt (e : Nat) (d : Direction) (j : Nat) : Option Nat :=
  let r : Int := (e / 8 : Nat) + j * rowStep d
  let c : Int := (e % 8 : Nat) + j * colStep d
  if 0 ≤ r ∧ r < 8 ∧ 0 ≤ c ∧ c < 8 then some (r.toNat * 8 + c.toNat) else none

/-- The cell `j` steps from `e` in direction `d` is on the board and occupied in the bitboard `b`. -/
def occupiedAt (b : Word) (e : Nat) (d : Direction) (j : Nat) : Bool :=
  match cellAt e d j with
  | some i => b.getLsbD i
  | none => false

/-! ### Move generation -/

/-- R110, word for word: cell `e` is empty, and in some direction a run of `k ≥ 1` cells of `other` next to it is followed
by a cell of the mover, all of them on the board. -/
def LegalDestination (m o : Word) (e : Nat) : Prop :=
  (empty m o).getLsbD e = true ∧
    ∃ d : Direction, ∃ k : Nat, 1 ≤ k ∧ (∀ j : Nat, 1 ≤ j → j ≤ k → occupiedAt o e d j = true) ∧
      occupiedAt m e d (k + 1) = true

/-- `t <- t | (sh_d(t) & O)`, repeated `n` times (R111). -/
def extendRun (d : Direction) (o : Word) : Nat → Word → Word
  | 0, t => t
  | n + 1, t => extendRun d o n (t ||| (sh d t &&& o))

/-- One direction's lane of the GEN datapath with `n` extension steps (R111). -/
def laneMoves (n : Nat) (m o : Word) (d : Direction) : Word :=
  sh d (extendRun d o n (sh d m &&& o)) &&& empty m o

/-- The GEN datapath with `n` extension steps: the lanes of all directions, joined (R111). -/
def movesWith (n : Nat) (m o : Word) : Word :=
  allDirections.foldl (fun acc d => acc ||| laneMoves n m o d) 0

/-- `GM(M, O)`, computed as R111 computes it, with `EXT_STEPS` extension steps. -/
def getMoves (m o : Word) : Word := movesWith Config.extSteps m o

/-- `LEGAL(M, O, X)` (R114). -/
def legal (m o x : Word) : Bool := popcount x == 1 && popcount (x &&& getMoves m o) == 1

/-! ### Flips -/

/-- The walk of R130 in one direction as its fixed chain of `n` stages, from the flips `f` and the cell `c`: a stage whose
cell is an `other` cell adds it and steps outward, any other stage passes both through. Answers the last `f` and `c`. -/
def walkStages (d : Direction) (o : Word) : Nat → Word → Word → Word × Word
  | 0, f, c => (f, c)
  | n + 1, f, c => if c &&& o = 0 then (f, c) else walkStages d o n (f ||| c) (sh d c)

/-- The number of stages of a lane's chain (R130). -/
def walkLength : Nat := 7

/-- One direction's flips: what the walk passed, when it ended on a mover cell (R130). -/
def laneFlips (m o x : Word) (d : Direction) : Word :=
  let fc := walkStages d o walkLength 0 (sh d x)
  if fc.2 &&& m = 0 then 0 else fc.1

/-- `FL(M, O, X)` (R130): 0 unless X is a single bit, else the union of the eight lanes. -/
def flips (m o x : Word) : Word :=
  if single x then allDirections.foldl (fun acc d => acc ||| laneFlips m o x d) 0 else 0

/-- R130 in words, for the move on cell `e`: cell `i` lies on a run of `k ≥ 1` cells of `other` next to `e` in some direction,
and the first cell after the run is not an `other` cell and is a mover cell. -/
def CapturedBy (m o : Word) (e i : Nat) : Prop :=
  ∃ d : Direction, ∃ k : Nat, (∀ j : Nat, 1 ≤ j → j ≤ k → occupiedAt o e d j = true) ∧
    occupiedAt o e d (k + 1) = false ∧ occupiedAt m e d (k + 1) = true ∧
      ∃ j : Nat, 1 ≤ j ∧ j ≤ k ∧ cellAt e d j = some i

/-- `MK(M, O, X) = (M | X | f, O & ~f)`, with `f` always computed here (R132). -/
def makeMove (m o x : Word) : Word × Word :=
  (m ||| x ||| flips m o x, o &&& ~~~flips m o x)

/-! ### The start position (R85) -/

/-- The mover's discs of the start position: cells 28 and 35 (R85). -/
def startMover : Word := 0x0000000810000000

/-- The other side's discs of the start position: cells 27 and 36 (R85). -/
def startOther : Word := 0x0000001008000000

end Sys2Proof.Machine
end

