-- ==== Sys2Proof/Machine/Flags.lean ====
section
/-! DEFINITION. The fields of STATUS and the two ways a command writes one (00_scope.md R9 `set` and `put`; 10_state.md R25, R26). -/

namespace Sys2Proof.Machine

/-- The fields of STATUS (R25). -/
inductive Flag where
  /-- the primary result was zero -/
  | Z
  /-- X was legal against (M, O) -/
  | LG
  /-- the mover must pass -/
  | PS
  /-- terminal position -/
  | TM
  /-- sticky: a move or index precondition was violated -/
  | PV
  /-- sticky: a pair that broke I1 was read -/
  | IV
  /-- sticky: an illegal command word was written -/
  | IC
deriving DecidableEq, Repr

/-- The bit place of a field in STATUS (R25). -/
def Flag.place : Flag → Nat
  | .Z => 0
  | .LG => 1
  | .PS => 2
  | .TM => 3
  | .PV => 8
  | .IV => 9
  | .IC => 10

/-- The sticky fields, which commands only set (R25, R26). -/
def Flag.sticky : Flag → Bool
  | .PV | .IV | .IC => true
  | .Z | .LG | .PS | .TM => false

/-- The fields that are not reserved, as a mask: bits 3:0 and 10:8 (R25). -/
def statusFields : Word := 0x70F

/-- The value of a field of a STATUS word. -/
def getFlag (status : Word) (f : Flag) : Bool := status.getLsbD f.place

/-- `put(F, b)` (R9). -/
def putFlag (status : Word) (f : Flag) (b : Bool) : Word :=
  if b then status ||| bit f.place else status &&& ~~~bit f.place

/-- `if b then set(F)` (R9): a condition that does not hold clears nothing (R26). -/
def setFlagIf (status : Word) (f : Flag) (b : Bool) : Word :=
  if b then putFlag status f true else status

end Sys2Proof.Machine
end

