-- ==== Sys2Proof/Machine/State.lean ====
section
/-! DEFINITION. The state of one BMG block and of its host port, plain data (10_state.md R21 to R34; 20_memory.md R50 to R60). -/

namespace Sys2Proof.Machine

/-- One access of a host (or bus master) to the register window: its width in bits, its offset, and for a write
the value (20_memory.md R53). The value of a write narrower than 64 bits is never looked at (R56). -/
inductive HostAccess where
  | read (width : Nat) (off : Offset)
  | write (width : Nat) (off : Offset) (value : Word)
deriving DecidableEq, Repr

/-- What can reach the block from outside: a host access (R20, R60) or the platform's reset input
(70_reset_and_hazards.md R190). -/
inductive PortEvent where
  | access (a : HostAccess)
  | reset
deriving DecidableEq, Repr

/-- How a host access completes (20_memory.md R52, R53, R56). -/
inductive Reply where
  /-- a read returned this value -/
  | data (v : Word)
  /-- a write (or the command a CMD write issued) completed -/
  | done
  /-- `raise BusError(off)`: the access was not performed (R56) -/
  | busError (off : Offset)
deriving DecidableEq, Repr

/-- The registers of the block (R21, R24, R25; R29: there are no others; E and CMD have no storage, R23, R27) and, as the
model's own two fields, the host's side of the port. -/
structure State where
  /-- the mover's bitboard (R21) -/
  M : Word
  /-- the other side's bitboard (R21) -/
  O : Word
  /-- the move operand (R21) -/
  X : Word
  /-- the legal-move set written by GEN (R21) -/
  L : Word
  /-- the flip set written by FLIP and APPLY (R21) -/
  F : Word
  /-- the scan residue (R21) -/
  S : Word
  /-- the result of POPCNT, 0 to 64 (R24) -/
  CNT : Narrow
  /-- the result of BITIDX and SCAN, 0 to 64 (R24) -/
  IDX : Narrow
  /-- the flags, at the bit places of R25 -/
  STATUS : Word
  /-- MODEL'S OWN (DESIGN CHOICE, notes/assumptions/1.md): the port events still to be performed, in the order of R60 -/
  pending : List PortEvent
  /-- MODEL'S OWN (DESIGN CHOICE, notes/assumptions/2.md): the answers given so far, oldest first -/
  replies : List Reply
deriving DecidableEq, Repr

/-- The reasons the block could stop with a fault: NONE. "The block never traps, never transfers control and never
stops" (60_exceptions.md R170), so the type has no constructor and no fault can be raised. Safe: see
notes/assumptions/19.md. A bus error is an answer to one access (`Reply.busError`), after which the block goes on. -/
inductive Fault where
deriving DecidableEq, Repr

/-- The reasons a command could have no meaning in this model. -/
inductive Refusal where
  /-- Raised by an arm of `exec` for a command the model gives no meaning; no arm raises it: all thirteen commands are
  modelled. Safe: the model would stop where the hardware goes on. -/
  | notModelled (mnemonic : String)
deriving DecidableEq, Repr

/-- The block after reset: every register is 0 (R34, R190), so E reads all ones. The board is empty: reset does not load
the start position, INIT does (R190, R191). No access is pending and none has been answered (DESIGN CHOICE,
notes/assumptions/1.md and 2.md). -/
def State.reset : State where
  M := 0
  O := 0
  X := 0
  L := 0
  F := 0
  S := 0
  CNT := 0
  IDX := 0
  STATUS := 0
  pending := []
  replies := []

end Sys2Proof.Machine
end

