-- ==== Sys2Proof/Machine/Operands.lean ====
section
/-! DEFINITION. The operand forms: reading a register a command names as SRC and writing one it names as DST
(10_state.md R21 to R23; 30_encoding.md R71). -/

namespace Sys2Proof.Machine

/-- The value of a register as a command source or in the register window; E is computed from M and O each time
(R23). -/
def readReg (s : State) : Reg → Word
  | .M => s.M
  | .O => s.O
  | .X => s.X
  | .L => s.L
  | .F => s.F
  | .S => s.S
  | .E => empty s.M s.O

/-- Write a register with storage; any 64-bit value is taken (R22). E has no storage, and a write to it is ignored (R23). -/
def writeReg (s : State) (r : Reg) (v : Word) : State :=
  match r with
  | .M => { s with M := v }
  | .O => { s with O := v }
  | .X => { s with X := v }
  | .L => { s with L := v }
  | .F => { s with F := v }
  | .S => { s with S := v }
  | .E => s

end Sys2Proof.Machine
end

