-- ==== Sys2Proof/Machine/Ops.lean ====
section
/-! DEFINITION. The operations the commands share. The block has no trap entry and no trap return (60_exceptions.md R177,
R178): what stands in their place is the status record, one operation for all three conditions. -/

namespace Sys2Proof.Machine

/-- Taking an error condition, as 60_exceptions.md R170 describes it: the condition's sticky bit is set when it holds, and
that is all. Nothing is saved, no mode changes, no vector is taken (R177). -/
def recordError (f : Flag) (condition : Bool) (s : State) : State :=
  { s with STATUS := setFlagIf s.STATUS f condition }

/-- The illegal command: `set(IC)`; no other register or STATUS bit changes (R171). -/
def recordIllegal (s : State) : State := recordError .IC true s

/-- Writing a result flag (10_state.md R26). -/
def putResult (f : Flag) (b : Bool) (s : State) : State :=
  { s with STATUS := putFlag s.STATUS f b }

/-- What every command that reads (M, O) as a board records: IV when the pair it read broke I1 (60_exceptions.md R173). The
pair is an argument because a command reports the pair from its start (R31, R134). -/
def recordOverlap (m o : Word) (s : State) : State := recordError .IV (overlaps m o) s

/-- The flags FLIP and APPLY write, from the flip set and legality they computed and the pair they read: Z, LG, PV when the move is
not legal, IV when the pair breaks I1 (R133, R134, R172). -/
def recordMove (flipSet : Word) (isLegal : Bool) (m o : Word) (s : State) : State :=
  recordOverlap m o (recordError .PV (!isLegal) (putResult .LG isLegal (putResult .Z (flipSet == 0) s)))

end Sys2Proof.Machine
end

