-- ==== Sys2Proof/Machine/BitUtilities.lean ====
section
/-! DEFINITION. POPCNT, BITIDX, SCAN (41_bit_utilities.md R95 to R97). -/

namespace Sys2Proof.Machine

/-- POPCNT src (R95). -/
def execPopcnt (src : Reg) (s : State) : Host.Outcome State Fault Refusal :=
  let v := readReg s src
  .next (putResult .Z (v == 0) { s with CNT := toNarrow (popcount v) })

/-- BITIDX src (R96): the index of the lowest set bit, 64 for 0; PV unless the operand is a single bit (R172 PV3). -/
def execBitidx (src : Reg) (s : State) : Host.Outcome State Fault Refusal :=
  let v := readReg s src
  .next (recordError .PV (!single v) (putResult .Z (v == 0) { s with IDX := toNarrow (ctz v) }))

/-- SCAN (R97): an empty S is the end of an enumeration and sets no PV. -/
def execScan (s : State) : Host.Outcome State Fault Refusal :=
  let v := s.S
  let b := lsb v
  .next (putResult .Z (v == 0) { s with X := b, IDX := toNarrow (ctz v), S := v &&& ~~~b })

end Sys2Proof.Machine
end

