-- ==== Sys2Proof/Machine/Control.lean ====
section
/-! DEFINITION. NOP, INIT, SWAP, MOV, CLRST (40_board_masks_control.md R84 to R88). -/

namespace Sys2Proof.Machine

/-- NOP (R84): nothing. -/
def execNop (s : State) : Host.Outcome State Fault Refusal := .next s

/-- INIT (R85): the start position into M and O. -/
def execInit (s : State) : Host.Outcome State Fault Refusal :=
  .next { s with M := startMover, O := startOther }

/-- SWAP (R86): both sides read the values from before. -/
def execSwap (s : State) : Host.Outcome State Fault Refusal :=
  .next { s with M := s.O, O := s.M }

/-- MOV dst, src (R87). A destination E is no MOV command: its word is illegal (R72 item 3) and sets IC (R171 IC5); the decoder
never answers such a term, and the term means what its word does (DEDUCED, notes/assumptions/11.md). -/
def execMov (dst src : Reg) (s : State) : Host.Outcome State Fault Refusal :=
  .next (if dst.writable then writeReg s dst (readReg s src) else recordIllegal s)

/-- CLRST (R88): every bit of STATUS to 0. -/
def execClrst (s : State) : Host.Outcome State Fault Refusal := .next { s with STATUS := 0 }

end Sys2Proof.Machine
end

