-- ==== Sys2Proof/Machine/FlipAndApply.lean ====
section
/-! DEFINITION. FLIP, APPLY (43_flip_and_apply.md R133, R134). -/

namespace Sys2Proof.Machine

/-- FLIP (R133): F receives FL whether or not X is legal. -/
def execFlip (s : State) : Host.Outcome State Fault Refusal :=
  let f := flips s.M s.O s.X
  .next (recordMove f (legal s.M s.O s.X) s.M s.O { s with F := f })

/-- APPLY (R134): performs its writes even when X is not legal; never reads F; every flag is about the pair from before. -/
def execApply (s : State) : Host.Outcome State Fault Refusal :=
  let f := flips s.M s.O s.X
  let pair := makeMove s.M s.O s.X
  .next (recordMove f (legal s.M s.O s.X) s.M s.O { s with M := pair.1, O := pair.2, F := f })

end Sys2Proof.Machine
end

