-- ==== Sys2Proof/Machine/MoveGeneration.lean ====
section
/-! DEFINITION. GEN, CHK, CLASS (42_move_generation.md R115 to R117). -/

namespace Sys2Proof.Machine

/-- GEN (R115): writes L and Z, and IV when the pair breaks I1; neither S nor CNT. -/
def execGen (s : State) : Host.Outcome State Fault Refusal :=
  let moves := getMoves s.M s.O
  .next (recordOverlap s.M s.O (putResult .Z (moves == 0) { s with L := moves }))

/-- CHK (R116): computes GM afresh and does not read L; an illegal X is an answer, so PV is never set. -/
def execChk (s : State) : Host.Outcome State Fault Refusal :=
  .next (recordOverlap s.M s.O (putResult .LG (legal s.M s.O s.X) s))

/-- CLASS (R117): Z, PS and TM from the moves of both sides; L is not written. -/
def execClassify (s : State) : Host.Outcome State Fault Refusal :=
  let a := getMoves s.M s.O
  let b := getMoves s.O s.M
  .next (recordOverlap s.M s.O
    (putResult .TM (a == 0 && b == 0) (putResult .PS (a == 0 && b != 0) (putResult .Z (a == 0) s))))

end Sys2Proof.Machine
end

