-- ==== Sys2Proof/Machine/Dispatch.lean ====
section
/-! DEFINITION. The meaning of each command, one arm for each constructor of Instr (30_encoding.md R73). -/

namespace Sys2Proof.Machine

def exec (i : Instr) (s : State) : Host.Outcome State Fault Refusal :=
  match i with
  | .nop => Sys2Proof.Machine.execNop s
  | .init => Sys2Proof.Machine.execInit s
  | .swap => Sys2Proof.Machine.execSwap s
  | .mov dst src => Sys2Proof.Machine.execMov dst src s
  | .clrst => Sys2Proof.Machine.execClrst s
  | .popcnt src => Sys2Proof.Machine.execPopcnt src s
  | .bitidx src => Sys2Proof.Machine.execBitidx src s
  | .scan => Sys2Proof.Machine.execScan s
  | .gen => Sys2Proof.Machine.execGen s
  | .chk => Sys2Proof.Machine.execChk s
  | .classify => Sys2Proof.Machine.execClassify s
  | .flip => Sys2Proof.Machine.execFlip s
  | .apply => Sys2Proof.Machine.execApply s

end Sys2Proof.Machine
end

