-- ==== Sys2Proof/Machine/HostPort.lean ====
section
/-! DEFINITION. The host port: the register window, access rules and ordering (20_memory.md R50 to R66), the CMD register
(10_state.md R27) and the reset input (70_reset_and_hazards.md R190). -/

namespace Sys2Proof.Machine

/-! ### The register map (R52) -/

/-- What stands at an aligned offset of the window (R52). -/
inductive WindowReg where
  | data (r : Reg)
  | cnt
  | idx
  | status
  | cmd
  | reserved
deriving DecidableEq, Repr

/-- The register at an offset, by the offset's eight-byte slot (R52; select code `n` stands at `8 * n`). Every offset from
0x58 on is reserved (R55). -/
def windowReg (off : Offset) : WindowReg :=
  match off.toNat / 8 with
  | 0 => .data .M
  | 1 => .data .O
  | 2 => .data .X
  | 3 => .data .L
  | 4 => .data .F
  | 5 => .data .S
  | 6 => .data .E
  | 7 => .cnt
  | 8 => .idx
  | 9 => .status
  | 10 => .cmd
  | _ => .reserved

/-- The offset of each register of R52 by name (the inverse of `windowReg`; reserved is given its first offset). -/
def offsetOf : WindowReg → Offset
  | .data .M => 0x00
  | .data .O => 0x08
  | .data .X => 0x10
  | .data .L => 0x18
  | .data .F => 0x20
  | .data .S => 0x28
  | .data .E => 0x30
  | .cnt => 0x38
  | .idx => 0x40
  | .status => 0x48
  | .cmd => 0x50
  | .reserved => 0x58

/-- An access the port performs: 64 bits wide, at an offset that is a multiple of 8 (R53). -/
def accessOk (width : Nat) (off : Offset) : Bool := width == 64 && off.toNat % 8 == 0

/-- The value a host read returns (R52): CNT and IDX zero-extended, 0 for CMD and for reserved offsets. -/
def windowRead (s : State) (w : WindowReg) : Word :=
  match w with
  | .data r => readReg s r
  | .cnt => s.CNT.setWidth 64
  | .idx => s.IDX.setWidth 64
  | .status => s.STATUS
  | .cmd => 0
  | .reserved => 0

/-- A host write to a register other than CMD (R52): a data register takes the value as given, every other write is ignored. -/
def windowWrite (s : State) (w : WindowReg) (v : Word) : State :=
  match w with
  | .data r => writeReg s r v
  | .cnt | .idx | .status | .cmd | .reserved => s

/-- The byte at a byte offset of the window, as a byte-addressed platform presents it (R54). -/
def windowByte (s : State) (off : Offset) : BitVec 8 :=
  byteLane (windowRead s (windowReg off)) (off.toNat % 8)

/-! ### Performing one access -/

/-- An access completes with an answer to its host (R53, R56, R60). -/
def answer (r : Reply) (s : State) : State := { s with replies := s.replies ++ [r] }

/-- A command that completed answers the CMD write that issued it (R60). -/
def answerCommand : Host.Outcome State Fault Refusal → Host.Outcome State Fault Refusal
  | .next s => .next (answer .done s)
  | .fault r => .fault r
  | .refused r => .refused r

/-- A 64-bit write of `v` to CMD: the command it names, or the record of an illegal command (R27, R171). Legality comes first
(R176). -/
def issueCommand (v : Word) (s : State) : Host.Outcome State Fault Refusal :=
  match decodeCmd v with
  | .ok i => exec i s
  | .error _ => .next (recordIllegal s)

/-- Perform one host access (R52 to R57). A bus error changes no register and no STATUS bit; the access completes with the error
(R56) and the block goes on (R170; notes/assumptions/4.md). -/
def performAccess (a : HostAccess) (s : State) : Host.Outcome State Fault Refusal :=
  match a with
  | .read width off =>
    if accessOk width off then .next (answer (.data (windowRead s (windowReg off))) s)
    else .next (answer (.busError off) s)
  | .write width off v =>
    if accessOk width off then
      if windowReg off = .cmd then answerCommand (issueCommand v s)
      else .next (answer .done (windowWrite s (windowReg off) v))
    else .next (answer (.busError off) s)

/-- The reset input (70_reset_and_hazards.md R190): every register to its reset value; the host's side of the port is no
register and stays (DESIGN CHOICE, notes/assumptions/5.md). -/
def resetBlock (s : State) : State :=
  { State.reset with pending := s.pending, replies := s.replies }

/-- One event at the port. -/
def performEvent (e : PortEvent) (s : State) : Host.Outcome State Fault Refusal :=
  match e with
  | .access a => performAccess a s
  | .reset => .next (resetBlock s)

/-- The next event in the order of R60, performed with the later ones still pending. With no event pending nothing
happens (DESIGN CHOICE, notes/assumptions/3.md). -/
def performNext (s : State) : Host.Outcome State Fault Refusal :=
  match s.pending with
  | [] => .next s
  | e :: rest => performEvent e { s with pending := rest }

/-- The access by which a host issues a command word given as a CMD write value (R27, R75). -/
def cmdWrite (v : Word) : HostAccess := .write 64 (offsetOf .cmd) v

/-! ### The platform's side: addresses, masters, time -/

/-- The platform's decoding of a byte address (R51, R55): the offset when the address is in the window, none when the block
never sees the access. -/
def offsetOfAddress (addr : Nat) : Option Offset :=
  if Config.bmgBase ≤ addr ∧ addr < Config.bmgBase + Config.windowBytes then
    some (BitVec.ofNat 7 (addr - Config.bmgBase))
  else none

/-- Take the first access of the `k`-th list: the access, and the lists that remain. -/
def takeFrom (k : Nat) (masters : List (List HostAccess)) : Option (HostAccess × List (List HostAccess)) :=
  match k, masters with
  | _, [] => none
  | 0, [] :: _ => none
  | 0, (a :: as) :: ms => some (a, as :: ms)
  | k + 1, m :: ms =>
    match takeFrom k ms with
    | none => none
    | some (a, ms') => some (a, m :: ms')

/-- The single sequence the platform makes of several masters' accesses (R60, R66): at each turn one of the masters that still
have an access, chosen by `pick`, gives its next one. `fuel` bounds the number of accesses. -/
def serializeWith (pick : Nat → Nat) : (fuel turn : Nat) → List (List HostAccess) → List HostAccess
  | 0, _, _ => []
  | fuel + 1, turn, masters =>
    let live := masters.filter (fun m => !m.isEmpty)
    match takeFrom (pick turn % live.length) live with
    | none => []
    | some (a, rest) => a :: serializeWith pick fuel (turn + 1) rest

/-- The platform's sequence, in the order `HOST_ARBITRATION` decides (R66; OPEN, notes/assumptions/7.md). -/
def serialize (masters : List (List HostAccess)) : List HostAccess :=
  serializeWith Config.hostArbitration (masters.map List.length).sum 0 masters

/-- Hand the accesses of several masters to the port, after those already pending. -/
def offer (masters : List (List HostAccess)) (s : State) : State :=
  { s with pending := s.pending ++ (serialize masters).map .access }

/-- The cycles a command takes, `CMD_LATENCY` (70_reset_and_hazards.md R195): OPEN, and no rule depends on it. -/
def commandCycles (i : Instr) : Nat := Config.cmdLatency i.opcode.toNat

end Sys2Proof.Machine
end

