-- ==== Sys2Proof/Machine/Step.lean ====
section
/-! DEFINITION. One step: the port performs the next host access (20_memory.md R60; 10_state.md R33). -/

namespace Sys2Proof.Machine

/-- One step of the block: the next port event, performed whole. A write to CMD executes its command within the step. -/
def step (s : State) : Host.Outcome State Fault Refusal := performNext s

/-- The host's next access is the CMD write that issues this command: the block fetches nothing (R63), and the host's access
sequence is the program (R20; notes/assumptions/1.md). -/
def State.withFetchWord (s : State) (nbits w : Nat) : State :=
  { s with pending := .access (cmdWrite (tableWrite nbits w)) :: s.pending }

end Sys2Proof.Machine
end

