-- ==== Sys2Proof/Machine/HostProgram.lean ====
section
/-! DEFINITION. Host programs: the assembler lines and pseudo-instructions of 30_encoding.md R75 and R76 as host access
sequences, and their text. -/

namespace Sys2Proof.Machine

/-- One line of a host program (R75): a command, `wr <reg>, <value>` with a register of M O X L F S, or `rd <reg>` with any
register of R52. -/
inductive AsmLine where
  | cmd (i : Instr)
  | wr (r : Reg) (v : Word)
  | rd (w : WindowReg)
deriving DecidableEq, Repr

/-- The host access a line stands for (R75). -/
def AsmLine.access : AsmLine → HostAccess
  | .cmd i => cmdWrite (encodeCmd i)
  | .wr r v => .write 64 (offsetOf (.data r)) v
  | .rd w => .read 64 (offsetOf w)

/-- The pseudo-instructions (R76). -/
inductive Pseudo where
  /-- LDMOVE i -/
  | ldmove (i : Nat)
  | countmoves
  | enum
  /-- PLAY i -/
  | play (i : Nat)
  | pass
  | discs
deriving DecidableEq, Repr

/-- The expansion of a pseudo-instruction (R76). -/
def Pseudo.expand : Pseudo → List AsmLine
  | .ldmove i => [.wr .X (bit i)]
  | .countmoves => [.cmd .gen, .cmd (.popcnt .L)]
  | .enum => [.cmd (.mov .S .L)]
  | .play i => [.wr .X (bit i), .cmd .apply, .cmd .swap]
  | .pass => [.cmd .swap]
  | .discs => [.cmd (.popcnt .M), .rd .cnt, .cmd (.popcnt .O), .rd .cnt]

/-- A state whose host is about to run a program: the program's accesses, after those already pending. -/
def withProgram (program : List AsmLine) (s : State) : State :=
  { s with pending := s.pending ++ program.map (fun l => .access l.access) }

/-- The register names of the syntax (R75). -/
def regName : Reg → String
  | .M => "M"
  | .O => "O"
  | .X => "X"
  | .L => "L"
  | .F => "F"
  | .S => "S"
  | .E => "E"

/-- The mnemonic of a command (R73). -/
def mnemonic : Instr → String
  | .nop => "NOP"
  | .init => "INIT"
  | .swap => "SWAP"
  | .mov _ _ => "MOV"
  | .clrst => "CLRST"
  | .popcnt _ => "POPCNT"
  | .bitidx _ => "BITIDX"
  | .scan => "SCAN"
  | .gen => "GEN"
  | .chk => "CHK"
  | .classify => "CLASS"
  | .flip => "FLIP"
  | .apply => "APPLY"

/-- A command as written (R75): the mnemonic, then its operands separated by a comma and a space. -/
def commandText (i : Instr) : String :=
  match i with
  | .mov dst src => mnemonic i ++ " " ++ regName dst ++ ", " ++ regName src
  | .popcnt src | .bitidx src => mnemonic i ++ " " ++ regName src
  | .nop | .init | .swap | .clrst | .scan | .gen | .chk | .classify | .flip | .apply => mnemonic i

end Sys2Proof.Machine
end

