-- ==== Sys2Proof/Machine/HostSearch.lean ====
section
/-! DEFINITION. The host-side search contract of 49_host_search.md R150 to R157. It is host software, not block behaviour
(00_scope.md R5), and no step of the machine uses it; it is written over the block's own functions GM and MK, with every
OPEN choice of the host an argument (93_implementation_defined.md P4, G1, G2; notes/assumptions/14.md, 15.md). -/

namespace Sys2Proof.Machine

/-- What the contract leaves to the host (P4). Scores are integers (R150; the width `SCORE_T` is OPEN and not modelled). -/
structure SearchParams where
  /-- `EVAL(M, O)` (R154) -/
  eval : Word → Word → Int
  /-- `TERMINAL(M, O)` (R152); it does not depend on `depth`, having no such argument -/
  terminal : Word → Word → Int
  /-- `NEG_INF`, the initial best score (R155, G2) -/
  negInf : Int
  /-- the host's choice of the move returned at depth 0 (R154, N8); see `SearchParams.moveAtDepthZero` -/
  depthZeroMove : Word → Word → Word
  /-- the window passed at a pass node, from alpha and beta; R153 writes `(-beta, -alpha)`, an OPEN choice (G1, N9) -/
  passWindow : Int → Int → Int × Int

/-- What `negamax` returns (R150): a pattern that is single-bit or zero, and a score. -/
structure SearchResult where
  move : Word
  score : Int
deriving DecidableEq, Repr

/-- The disc difference `popcount(M) − popcount(O)`, whose sign a terminal score has (R152). -/
def discDifference (m o : Word) : Int := (popcount m : Int) - (popcount o : Int)

/-- The properties the contract requires of the host's choices: EVAL is perspective-symmetric (R154), the terminal score has the
sign of the disc difference (R152), and NEG_INF is below every score (R155), where `bound` bounds the scores. EVAL is
deterministic (R154) by being a function. -/
structure SearchParams.Meets (P : SearchParams) (bound : Int) : Prop where
  eval_symmetric : ∀ m o, P.eval o m = -P.eval m o
  terminal_sign : ∀ m o, (P.terminal m o).sign = (discDifference m o).sign
  eval_bounded : ∀ m o, -bound ≤ P.eval m o ∧ P.eval m o ≤ bound
  terminal_bounded : ∀ m o, -bound ≤ P.terminal m o ∧ P.terminal m o ≤ bound
  negInf_below : P.negInf < -bound

/-- The move returned at depth 0: the host's choice where it is a member of GM, else no move. Every choice R157 allows, zero or a
member (93_implementation_defined.md U7), is some host's, and no other pattern is ever returned (R150: single-bit or zero; DESIGN
CHOICE, notes/assumptions/15.md). -/
def SearchParams.moveAtDepthZero (P : SearchParams) (m o : Word) : Word :=
  if legal m o (P.depthZeroMove m o) then P.depthZeroMove m o else 0

/-- A searcher of a position within a window: M, O, alpha, beta. -/
abbrev Searcher := Word → Word → Int → Int → SearchResult

/-- The loop of R155 over the moves in `rest`, lowest index first (R156), at most `fuel` of them: the strict comparison keeps the
first of equal scores, and a cutoff stops it. -/
def searchMoves (child : Searcher) (m o : Word) : (fuel : Nat) → (rest : Word) → (alpha beta : Int) → SearchResult → SearchResult
  | 0, _, _, _, best => best
  | fuel + 1, rest, alpha, beta, best =>
    if rest = 0 then best
    else
      let b := lsb rest
      let pair := makeMove m o b
      let score := -(child pair.2 pair.1 (-beta) (-alpha)).score
      let best' : SearchResult := if score > best.score then ⟨b, score⟩ else best
      let alpha' := if best'.score > alpha then best'.score else alpha
      if alpha' ≥ beta then best'
      else searchMoves child m o fuel (rest &&& ~~~b) alpha' beta best'

/-- A node, given how a position whose mover has a move is searched at this depth: terminal (R152), pass at the same depth
(R153), or that search. A pass node's child has a move, so it is no pass node. -/
def searchNode (P : SearchParams) (playable : Searcher) : Searcher := fun m o alpha beta =>
  if getMoves m o = 0 then
    if getMoves o m = 0 then ⟨0, P.terminal m o⟩
    else ⟨0, -(playable o m (P.passWindow alpha beta).1 (P.passWindow alpha beta).2).score⟩
  else playable m o alpha beta

/-- The search of a position whose mover has a move: EVAL at depth 0 (R154), else the loop over its moves (R155), at most 64. -/
def searchPlayable (P : SearchParams) : Nat → Searcher
  | 0 => fun m o _ _ => ⟨P.moveAtDepthZero m o, P.eval m o⟩
  | depth + 1 => fun m o alpha beta =>
    searchMoves (searchNode P (searchPlayable P depth)) m o 64 (getMoves m o) alpha beta ⟨0, P.negInf⟩

/-- `negamax(M, O, depth, alpha, beta)` (R150); a negative depth is treated as zero (R151). -/
def negamax (P : SearchParams) (m o : Word) (depth alpha beta : Int) : SearchResult :=
  searchNode P (searchPlayable P depth.toNat) m o alpha beta

end Sys2Proof.Machine
end

