-- ==== Sys2Proof/Safety.lean ====
section
/-! DEFINITION. The terms statements about the block are made in: well-formed states, the invariants of the board, the spec's
own words for a count, an index and a legal move, and which event may change which part of the state. -/

namespace Sys2Proof.Machine

/-! ### Well-formed states -/

/-- What every reachable state satisfies: CNT and IDX within their ranges (10_state.md R24), every reserved bit of STATUS 0 (R25,
R26), and never both PS and TM, of which CLASS writes at most one (42_move_generation.md R117). -/
def State.Wf (s : State) : Prop :=
  s.CNT.toNat ≤ 64 ∧ s.IDX.toNat ≤ 64 ∧ s.STATUS &&& ~~~statusFields = 0 ∧
    ¬(getFlag s.STATUS .PS = true ∧ getFlag s.STATUS .TM = true)

/-- Invariant I1 of the pair the block holds: "`mover & other == 0`" (00_scope.md R11). -/
def State.I1 (s : State) : Prop := s.M &&& s.O = 0

/-! ### The spec's words about bitboards -/

/-- The indices of the set bits of a bitboard, rising: the lists in braces of 95_test_vectors.md. -/
def cells (v : Word) : List Nat := (List.range 64).filter (fun i => v.getLsbD i)

/-- `x` is the pattern of one cell that is a legal destination (R110, R114). -/
def LegalMove (m o x : Word) : Prop := ∃ e : Nat, e < 64 ∧ x = bit e ∧ LegalDestination m o e

/-- Cell `i` is flipped by the move `x`: `x` is the pattern of one cell, and the walk of R130 from it captures `i`. -/
def FlippedBy (m o x : Word) (i : Nat) : Prop := ∃ e : Nat, e < 64 ∧ x = bit e ∧ CapturedBy m o e i

/-- Every bit of STATUS is as before but for the listed fields. -/
def OnlyFlags (fields : List Flag) (before after : Word) : Prop :=
  ∀ i : Nat, i ∉ fields.map Flag.place → after.getLsbD i = before.getLsbD i

/-- The state after `n` SCAN commands (41_bit_utilities.md R98). -/
def afterScans : Nat → State → State
  | 0, s => s
  | n + 1, s =>
    match exec .scan (afterScans n s) with
    | .next t => t
    | .fault _ => s
    | .refused _ => s

/-! ### Accesses and their answers -/

/-- The host access an event is, if it is one. -/
def PortEvent.access? : PortEvent → Option HostAccess
  | .access a => some a
  | .reset => none

/-- The kind of answer each access gets (20_memory.md R52, R53, R56): data for a performed read, `done` for a performed write, the
bus error of its offset for an access that is not performed. -/
def AnsweredBy : HostAccess → Reply → Prop
  | .read width off, r => if width = 64 ∧ off.toNat % 8 = 0 then ∃ v, r = .data v else r = .busError off
  | .write width off _, r => if width = 64 ∧ off.toNat % 8 = 0 then r = .done else r = .busError off

/-! ### What the next event is -/

/-- The next event is the platform's reset. -/
def resetIsNext (s : State) : Prop := ∃ rest, s.pending = .reset :: rest

/-- The next event is a performed CMD write, and this is what its value decodes to. -/
def commandIsNext (s : State) (d : Except IllegalCause Instr) : Prop :=
  ∃ v rest, s.pending = .access (.write 64 0x50 v) :: rest ∧ decodeCmd v = d

/-- The next event is a performed host write to this offset. -/
def writeIsNext (s : State) (off : Offset) : Prop :=
  ∃ v rest, s.pending = .access (.write 64 off v) :: rest

/-- The commands that write a result flag and those that can set a sticky one: the "written by" column of R25. -/
def Flag.writtenBy : Flag → Instr → Bool
  | .Z, .gen | .Z, .popcnt _ | .Z, .bitidx _ | .Z, .scan | .Z, .flip | .Z, .apply | .Z, .classify => true
  | .LG, .chk | .LG, .flip | .LG, .apply => true
  | .PS, .classify => true
  | .TM, .classify => true
  | .PV, .flip | .PV, .apply | .PV, .bitidx _ => true
  | .IV, .gen | .IV, .chk | .IV, .classify | .IV, .flip | .IV, .apply => true
  | _, _ => false

/-- The commands that write a data register: the "written by commands" column of R21. -/
def writtenByCommand : Reg → Instr → Bool
  | .M, .init | .M, .swap | .M, .apply => true
  | .O, .init | .O, .swap | .O, .apply => true
  | .X, .scan => true
  | .L, .gen => true
  | .F, .flip | .F, .apply => true
  | .S, .scan => true
  | r, .mov dst _ => r == dst
  | _, _ => false

/-- What can break I1 (70_reset_and_hazards.md R194 item 8): a host write of M or O, a MOV into M or O, an APPLY whose X is not
legal. -/
def mayBreakI1 (s : State) : Prop :=
  writeIsNext s 0x00 ∨ writeIsNext s 0x08 ∨
    (∃ src, commandIsNext s (.ok (.mov .M src)) ∨ commandIsNext s (.ok (.mov .O src))) ∨
    (commandIsNext s (.ok .apply) ∧ legal s.M s.O s.X = false)

end Sys2Proof.Machine
end

