-- ==== Sys2Proof/Certificates/Slice0/Obligations.lean ====
section
/-! DEFINITION. The statements for the provers, from the numbered rules of spec/. Each docstring names the rule it formalises. -/

open Sys2Proof Sys2Proof.Machine

/-! ### The encoding (30_encoding.md) -/

/-- R70 to R74: the decoder and the encoder are exact inverses. A word decodes to a command precisely when the command is
well-formed and the word is its encoding, so every word has at most one meaning and every operand value survives. -/
def Obligations.DecodeExactlyInvertsEncode : Prop :=
  (∀ (w : CmdWord) (i : Instr), decodeWord w = .ok i ↔ i.wellFormed = true ∧ w = encode i) ∧
  (∀ (v : Word) (i : Instr), decodeCmd v = .ok i ↔ i.wellFormed = true ∧ v = encodeCmd i)

/-- R72: which CMD write values are legal commands, in the fields of the value itself; every other value has, as a command,
the effect that IC is set and nothing else changes. -/
def Obligations.LegalWordsAreThoseOfR72 : Prop :=
  ∀ v : Word,
    ((∃ i, decodeCmd v = .ok i) ↔
      v.extractLsb' 10 22 = 0 ∧ v.extractLsb' 32 32 = 0 ∧ (v.extractLsb' 0 4).toNat ≤ 12 ∧
      ((v.extractLsb' 0 4).toNat = 3 → (v.extractLsb' 4 3).toNat ≤ 6 ∧ (v.extractLsb' 7 3).toNat ≤ 5) ∧
      ((v.extractLsb' 0 4).toNat = 5 ∨ (v.extractLsb' 0 4).toNat = 6 →
        (v.extractLsb' 4 3).toNat ≤ 6 ∧ (v.extractLsb' 7 3).toNat = 0) ∧
      ((v.extractLsb' 0 4).toNat ≠ 3 → (v.extractLsb' 0 4).toNat ≠ 5 → (v.extractLsb' 0 4).toNat ≠ 6 →
        (v.extractLsb' 4 3).toNat = 0 ∧ (v.extractLsb' 7 3).toNat = 0)) ∧
    ((¬∃ i, decodeCmd v = .ok i) → ∀ s : State, ∃ t : State, issueCommand v s = .next t ∧
      getFlag t.STATUS .IC = true ∧ OnlyFlags [.IC] s.STATUS t.STATUS ∧ t = { s with STATUS := t.STATUS })

/-- R74: the thirteen patterns do not overlap, and a word is a legal command exactly when it matches one of them and, in the
rows with letters, the field values are allowed. -/
def Obligations.PatternsAreDisjointAndComplete : Prop :=
  patternRows.Pairwise (fun a b => ∀ w : CmdWord, ¬(a.holds w = true ∧ b.holds w = true)) ∧
  ∀ w : CmdWord, (∃ i, decodeWord w = .ok i) ↔
    ∃ r ∈ patternRows, r.holds w = true ∧
      (r.pattern = 0x003 → w.extractLsb' 4 3 ≠ 7 ∧ w.extractLsb' 7 3 ≠ 6 ∧ w.extractLsb' 7 3 ≠ 7) ∧
      (r.pattern = 0x005 ∨ r.pattern = 0x006 → w.extractLsb' 4 3 ≠ 7)

/-- R73 and the words of 95_test_vectors.md: words of every family, written out, decode to the command the table gives. -/
def Obligations.TableWordsDecode : Prop :=
  decodeWord 0x000 = .ok .nop ∧ decodeWord 0x001 = .ok .init ∧ decodeWord 0x002 = .ok .swap ∧
  decodeWord 0x2B3 = .ok (.mov .S .L) ∧ decodeWord 0x1E3 = .ok (.mov .L .E) ∧ decodeWord 0x004 = .ok .clrst ∧
  decodeWord 0x035 = .ok (.popcnt .L) ∧ decodeWord 0x026 = .ok (.bitidx .X) ∧ decodeWord 0x007 = .ok .scan ∧
  decodeWord 0x008 = .ok .gen ∧ decodeWord 0x009 = .ok .chk ∧ decodeWord 0x00A = .ok .classify ∧
  decodeWord 0x00B = .ok .flip ∧ decodeWord 0x00C = .ok .apply

/-! ### The step and the host port (10_state.md, 20_memory.md) -/

/-- R27 with R60: when the next access is a performed write to CMD whose value decodes to a command, the step is that command's
meaning at the state with the access taken, followed by the answer to the access. The command's word placed by
`withFetchWord` runs so too. -/
def Obligations.StepRunsTheIssuedCommand : Prop :=
  (∀ (s : State) (v : Word) (rest : List PortEvent) (i : Instr),
    s.pending = .access (.write 64 0x50 v) :: rest → decodeCmd v = .ok i →
    step s =
      match exec i { s with pending := rest } with
      | .next t => .next { t with replies := t.replies ++ [.done] }
      | .fault r => .fault r
      | .refused r => .refused r) ∧
  (∀ (s : State) (i : Instr), i.wellFormed = true →
    step (s.withFetchWord 32 (encode i).toNat) =
      match exec i s with
      | .next t => .next { t with replies := t.replies ++ [.done] }
      | .fault r => .fault r
      | .refused r => .refused r)

/-- R52: the register map. A 64-bit read at each offset answers the value of the map and changes no register; a 64-bit write at
each offset does what the map says. -/
def Obligations.RegisterMapReadsAndWrites : Prop :=
  ∀ (s : State) (rest : List PortEvent),
    (∀ p ∈ [((0x00 : Offset), s.M), (0x08, s.O), (0x10, s.X), (0x18, s.L), (0x20, s.F), (0x28, s.S), (0x30, ~~~(s.M ||| s.O)),
        (0x38, s.CNT.setWidth 64), (0x40, s.IDX.setWidth 64), (0x48, s.STATUS), (0x50, 0), (0x58, 0), (0x60, 0), (0x68, 0),
        (0x70, 0), (0x78, 0)],
      s.pending = .access (.read 64 p.1) :: rest →
        step s = .next { s with pending := rest, replies := s.replies ++ [.data p.2] }) ∧
    (∀ v : Word, ∀ p ∈ [((0x00 : Offset), { s with M := v }), (0x08, { s with O := v }), (0x10, { s with X := v }),
        (0x18, { s with L := v }), (0x20, { s with F := v }), (0x28, { s with S := v }), (0x30, s), (0x38, s), (0x40, s),
        (0x48, s), (0x58, s), (0x60, s), (0x68, s), (0x70, s), (0x78, s)],
      s.pending = .access (.write 64 p.1 v) :: rest →
        step s = .next { p.2 with pending := rest, replies := s.replies ++ [.done] }) ∧
    (∀ v : Word, s.pending = .access (.write 64 0x50 v) :: rest →
      (∀ i, v.extractLsb' 32 32 = 0 → decodeWord (v.extractLsb' 0 32) = .ok i →
        ∀ t, exec i { s with pending := rest } = .next t → step s = .next { t with replies := t.replies ++ [.done] }))

/-- R53, R56: an access of another width than 64 bits, or at an offset that is no multiple of 8, is answered with the bus error and
changes no register and no STATUS bit; any other access is not answered so. -/
def Obligations.BusErrorExactlyForBadAccess : Prop :=
  ∀ (s : State) (width : Nat) (off : Offset) (v : Word) (rest : List PortEvent),
    s.pending = .access (.read width off) :: rest ∨ s.pending = .access (.write width off v) :: rest →
    (width ≠ 64 ∨ off.toNat % 8 ≠ 0 →
      step s = .next { s with pending := rest, replies := s.replies ++ [.busError off] }) ∧
    (width = 64 → off.toNat % 8 = 0 →
      ∃ t r, step s = .next t ∧ t.replies = s.replies ++ [r] ∧ ∀ off', r ≠ .busError off')

/-- R57: a read changes nothing of the block, and the same read again, with only reads between, returns the same answer. -/
def Obligations.ReadsHaveNoSideEffect : Prop :=
  ∀ (s : State) (width : Nat) (off : Offset) (between : List (Nat × Offset)) (rest : List PortEvent),
    s.pending = .access (.read width off) ::
      (between.map (fun p => PortEvent.access (.read p.1 p.2)) ++ .access (.read width off) :: rest) →
    ∃ (r : Reply) (rs : List Reply), rs.length = between.length ∧
      Host.Core.run Sys2Proof.core (between.length + 2) s =
        .next { s with pending := rest, replies := s.replies ++ [r] ++ rs ++ [r] }

/-- R54: byte `k` of the word at an aligned offset is bits `8k+7 … 8k` of the register a read there returns. -/
def Obligations.BytesOfTheWindowAreLittleEndian : Prop :=
  ∀ (s : State) (off : Offset) (k b : Nat), off.toNat % 8 = 0 → k < 8 → b < 8 →
    (windowByte s (off + BitVec.ofNat 7 k)).getLsbD b = (windowRead s (windowReg off)).getLsbD (8 * k + b)

/-- R51, R55: the base is a multiple of 0x80; the addresses of the window are those from the base to 0x7F above it, and each
reaches the block as its distance from the base; no other address does. -/
def Obligations.PlatformDecodesTheWindow : Prop :=
  Config.bmgBase % 0x80 = 0 ∧
  ∀ (addr : Nat) (off : Offset), offsetOfAddress addr = some off ↔
    Config.bmgBase ≤ addr ∧ addr ≤ Config.bmgBase + 0x7F ∧ addr = Config.bmgBase + off.toNat

/-- R60: a step performs the first pending event and does not depend on the later ones. For accesses that is R60's; for a reset, that the
later accesses stay pending is the model's own choice (DESIGN CHOICE, notes/assumptions/5.md). -/
def Obligations.LaterAccessesAreNotObserved : Prop :=
  ∀ (s : State) (e : PortEvent) (later later' : List PortEvent), ∃ t : State,
    step { s with pending := e :: later } = .next { t with pending := later } ∧
    step { s with pending := e :: later' } = .next { t with pending := later' }

/-- R60: the pending events are performed one at a time, in order: after `k` steps exactly the first `k` are gone, and the answers
added are those of the accesses among them, one each, in the order of the accesses. That the answers are kept as a list in which a
reset has none (notes/assumptions/2.md), and that a reset keeps the pending accesses (notes/assumptions/5.md), are the model's own
choices. -/
def Obligations.EveryAccessIsAnsweredInOrder : Prop :=
  ∀ (s : State) (k : Nat), k ≤ s.pending.length → ∃ (t : State) (rs : List Reply),
    Host.Core.run Sys2Proof.core k s = .next t ∧ t.pending = s.pending.drop k ∧ t.replies = s.replies ++ rs ∧
      List.Forall₂ AnsweredBy ((s.pending.take k).filterMap PortEvent.access?) rs

/-- R66: whatever the platform's order, it is one sequence of exactly the masters' accesses, each master's in the master's order. -/
def Obligations.SerializationKeepsEachMastersOrder : Prop :=
  ∀ (pick : Nat → Nat) (masters : List (List HostAccess)),
    (serializeWith pick (masters.map List.length).sum 0 masters).Perm masters.flatten ∧
    ∀ l ∈ masters, l.Sublist (serializeWith pick (masters.map List.length).sum 0 masters)

/-- The model's choice (notes/assumptions/3.md): with nothing pending a step changes nothing. -/
def Obligations.IdlePortChangesNothing : Prop :=
  ∀ s : State, s.pending = [] → step s = .next s

/-! ### Errors, reset and the whole machine (10_state.md, 60_exceptions.md, 70_reset_and_hazards.md) -/

/-- R170: the block never stops: from every state, every number of steps completes. -/
def Obligations.BlockNeverStops : Prop :=
  ∀ (n : Nat) (s : State), ∃ t : State, Host.Core.run Sys2Proof.core n s = .next t

/-- R171: a CMD write whose value meets any of IC1 to IC7 sets IC; no other register or STATUS bit changes. -/
def Obligations.IllegalCommandSetsIcOnly : Prop :=
  ∀ (s : State) (v : Word) (rest : List PortEvent), s.pending = .access (.write 64 0x50 v) :: rest →
    (v.extractLsb' 32 32 ≠ 0 ∨
      v.extractLsb' 10 22 ≠ 0 ∨
      (v.extractLsb' 0 4).toNat ∈ [13, 14, 15] ∨
      (v.extractLsb' 0 4 = 3 ∧ v.extractLsb' 4 3 = 7) ∨
      (v.extractLsb' 0 4 = 3 ∧ (v.extractLsb' 7 3).toNat ∈ [6, 7]) ∨
      ((v.extractLsb' 0 4).toNat ∈ [5, 6] ∧ (v.extractLsb' 4 3 = 7 ∨ v.extractLsb' 7 3 ≠ 0)) ∨
      ((v.extractLsb' 0 4).toNat ∉ [3, 5, 6] ∧ (v.extractLsb' 4 3 ≠ 0 ∨ v.extractLsb' 7 3 ≠ 0))) →
    ∃ t : State, step s = .next t ∧ getFlag t.STATUS .IC = true ∧ OnlyFlags [.IC] s.STATUS t.STATUS ∧
      t = { s with STATUS := t.STATUS, pending := rest, replies := s.replies ++ [.done] }

/-- R34, R190: the reset input sets every register to zero whatever it held, E then reads all ones and CMD reads 0; and
`State.reset` is such a state. -/
def Obligations.ResetClearsEveryRegister : Prop :=
  (∀ (s : State) (rest : List PortEvent), s.pending = .reset :: rest →
    ∃ t : State, step s = .next t ∧ t.M = 0 ∧ t.O = 0 ∧ t.X = 0 ∧ t.L = 0 ∧ t.F = 0 ∧ t.S = 0 ∧ t.CNT = 0 ∧ t.IDX = 0 ∧
      t.STATUS = 0 ∧ windowRead t (windowReg 0x30) = 0xFFFFFFFFFFFFFFFF ∧ windowRead t (windowReg 0x50) = 0) ∧
  (State.reset.M = 0 ∧ State.reset.O = 0 ∧ State.reset.X = 0 ∧ State.reset.L = 0 ∧ State.reset.F = 0 ∧ State.reset.S = 0 ∧
    State.reset.CNT = 0 ∧ State.reset.IDX = 0 ∧ State.reset.STATUS = 0 ∧
    windowRead State.reset (windowReg 0x30) = 0xFFFFFFFFFFFFFFFF)

/-- R24, R26, R117: the state after reset is well-formed (`State.Wf`). -/
def Obligations.ResetStateIsWellFormed : Prop := State.reset.Wf

/-- R24, R26, R117: from every well-formed state, a step gives a well-formed state: CNT and IDX stay within 0 to 64, the reserved
bits of STATUS stay 0, and PS and TM are never both set. -/
def Obligations.StepKeepsStateWellFormed : Prop :=
  ∀ s t : State, s.Wf → step s = .next t → t.Wf

/-- R25, R26: a STATUS field changes only at reset, at CLRST, at a command that writes it, or (IC) at an illegal command; and a
sticky field goes from 1 to 0 only at reset or CLRST. -/
def Obligations.StatusChangesOnlyByItsWriters : Prop :=
  ∀ (s t : State) (f : Flag), step s = .next t →
    (getFlag t.STATUS f ≠ getFlag s.STATUS f →
      resetIsNext s ∨ commandIsNext s (.ok .clrst) ∨ (∃ i, commandIsNext s (.ok i) ∧ f.writtenBy i = true) ∨
        (f = .IC ∧ ∃ c, commandIsNext s (.error c))) ∧
    (f.sticky = true → getFlag s.STATUS f = true → getFlag t.STATUS f = false →
      resetIsNext s ∨ commandIsNext s (.ok .clrst))

/-- R21, R24, R32: a register changes only at reset, at a host write to it, or at a command that writes it; CNT only at POPCNT and
IDX only at BITIDX and SCAN besides reset. -/
def Obligations.RegistersChangeOnlyByTheirWriters : Prop :=
  ∀ s t : State, step s = .next t →
    (∀ r : Reg, r ≠ .E → readReg t r ≠ readReg s r →
      resetIsNext s ∨ writeIsNext s (offsetOf (.data r)) ∨ ∃ i, commandIsNext s (.ok i) ∧ writtenByCommand r i = true) ∧
    (t.CNT ≠ s.CNT → resetIsNext s ∨ ∃ src, commandIsNext s (.ok (.popcnt src))) ∧
    (t.IDX ≠ s.IDX → resetIsNext s ∨ commandIsNext s (.ok .scan) ∨ ∃ src, commandIsNext s (.ok (.bitidx src)))

/-- R194 item 8: a pair that meets I1 still meets it after any event but a host write of M or O, a MOV into M or O, or an APPLY
whose X is not legal. -/
def Obligations.BoardStaysDisjoint : Prop :=
  ∀ s t : State, s.I1 → ¬mayBreakI1 s → step s = .next t → t.I1

/-- R178: a command's registers do not depend on STATUS: whatever flags are set, it runs as it would with none. -/
def Obligations.StatusBlocksNoCommand : Prop :=
  ∀ (i : Instr) (s : State) (st : Word), ∃ t u : State,
    exec i s = .next t ∧ exec i { s with STATUS := st } = .next u ∧ u = { t with STATUS := u.STATUS }

/-- R194 item 1 and R134 (90_conflicts.md C12): CHK, CLASS, FLIP and APPLY never read L, and APPLY never reads F: whatever L and F
hold, the board, the flip set and the flags they leave are the same. -/
def Obligations.BoardCommandsIgnoreStaleResults : Prop :=
  ∀ i ∈ [Instr.chk, .classify, .flip, .apply], ∀ (s : State) (l f : Word), ∃ t u : State,
    exec i s = .next t ∧ exec i { s with L := l, F := f } = .next u ∧
    u = { t with L := l, F := u.F } ∧ (i = .flip ∨ i = .apply → u.F = t.F)

/-! ### Directions (40_board_masks_control.md) -/

/-- R83: a single cell steps to its neighbour in the direction, or to nothing at the edge of the board; a step distributes over `|`
and `&`, keeps 0, and eight of them leave nothing. -/
def Obligations.ShiftFollowsTheBoard : Prop :=
  ∀ d : Direction,
    (∀ i : Nat, i < 64 → sh d (bit i) = match cellAt i d 1 with | some j => bit j | none => 0) ∧
    (∀ a b : Word, sh d (a ||| b) = sh d a ||| sh d b ∧ sh d (a &&& b) = sh d a &&& sh d b) ∧
    sh d 0 = 0 ∧ (∀ v : Word, (sh d)^[8] v = 0)

/-- R81: masking before the shift, column 7 for a step with `dc = +1` and column 0 for one with `dc = -1`, gives the same result for
every value. -/
def Obligations.MaskMayPrecedeTheShift : Prop :=
  ∀ (d : Direction) (v : Word),
    sh d v = shiftDir d (v &&& match d with
      | .N | .S => 0xFFFFFFFFFFFFFFFF
      | .E | .NE | .SE => 0x7F7F7F7F7F7F7F7F
      | .W | .NW | .SW => 0xFEFEFEFEFEFEFEFE)

/-! ### NOP, INIT, SWAP, MOV, CLRST (40_board_masks_control.md) -/

/-- R84: NOP completes and changes nothing; its word is 0x000 and no other. -/
def Obligations.NopChangesNothing : Prop :=
  (∀ s : State, exec .nop s = .next s) ∧ (∀ w : CmdWord, decodeWord w = .ok .nop ↔ w = 0x000) ∧
  (∀ w : CmdWord, w.extractLsb' 0 4 = 0 → w ≠ 0 → ∃ c, decodeWord w = .error c)

/-- R85: INIT writes the start position, cells 28 and 35 for the mover and 27 and 36 for the other side, and keeps every other
register and STATUS; its word is 0x001; from that position the moves are cells 19, 26, 37, 44 and the move on 19 flips cell 27,
while the other arrangement has the moves 20, 29, 34, 43. -/
def Obligations.InitLoadsTheStartPosition : Prop :=
  (∀ s : State, ∃ t : State, exec .init s = .next t ∧ t.M = 0x0000000810000000 ∧ t.O = 0x0000001008000000 ∧
    cells t.M = [28, 35] ∧ cells t.O = [27, 36] ∧ getMoves t.M t.O = 0x0000102004080000 ∧
    cells 0x0000102004080000 = [19, 26, 37, 44] ∧ flips t.M t.O (bit 19) = bit 27 ∧
    cells (getMoves t.O t.M) = [20, 29, 34, 43] ∧ t = { s with M := t.M, O := t.O }) ∧
  (∀ w : CmdWord, decodeWord w = .ok .init ↔ w = 0x001)

/-- R86: SWAP exchanges M and O and keeps all else; twice it is the identity; it keeps I1; its word is 0x002. -/
def Obligations.SwapExchangesTheBoards : Prop :=
  (∀ s : State, exec .swap s = .next { s with M := s.O, O := s.M } ∧
    (∀ t, exec .swap s = .next t → exec .swap t = .next s ∧ (s.I1 → t.I1))) ∧
  (∀ w : CmdWord, decodeWord w = .ok .swap ↔ w = 0x002)

/-- R87: MOV copies the source's value from before into the destination, any register with storage, and keeps every other register
and STATUS; MOV of a register to itself changes nothing; after MOV M, E the boards are disjoint; the word is as given, and a
reserved select in either field or E as destination makes the word illegal. -/
def Obligations.MovCopiesOneRegister : Prop :=
  (∀ (dst src : Reg) (s : State), dst ≠ .E → ∃ t : State, exec (.mov dst src) s = .next t ∧
    readReg t dst = readReg s src ∧ (∀ r : Reg, r ≠ dst → r ≠ .E → readReg t r = readReg s r) ∧
    t = { s with M := t.M, O := t.O, X := t.X, L := t.L, F := t.F, S := t.S } ∧
    (src = dst → t = s) ∧ (dst = .M → src = .E → t.M &&& t.O = 0)) ∧
  (∀ (w : CmdWord) (dst src : Reg), decodeWord w = .ok (.mov dst src) ↔
    dst ≠ .E ∧ w = 0x003 ||| (src.code.setWidth 32 <<< 4) ||| (dst.code.setWidth 32 <<< 7)) ∧
  (∀ w : CmdWord, w.extractLsb' 0 4 = 3 →
    (w.extractLsb' 4 3 = 7 ∨ w.extractLsb' 7 3 = 6 ∨ w.extractLsb' 7 3 = 7) → ∃ c, decodeWord w = .error c)

/-- The term `MOV E, src`, which no word decodes to: in the model it has the effect of the illegal words it would stand for
(notes/assumptions/11.md; 60_exceptions.md R171 IC5). -/
def Obligations.MovToTheVirtualRegisterIsIllegal : Prop :=
  ∀ (src : Reg) (s : State), (∀ w : CmdWord, decodeWord w ≠ .ok (.mov .E src)) ∧
    exec (.mov .E src) s = .next { s with STATUS := s.STATUS ||| 0x400 }

/-- R88: CLRST clears every bit of STATUS and keeps all else; its word is 0x004, and any other word of its opcode is illegal. -/
def Obligations.ClrstClearsStatus : Prop :=
  (∀ s : State, exec .clrst s = .next { s with STATUS := 0 }) ∧ (∀ w : CmdWord, decodeWord w = .ok .clrst ↔ w = 0x004) ∧
  (∀ w : CmdWord, w.extractLsb' 0 4 = 4 → w ≠ 0x004 → ∃ c, decodeWord w = .error c)

/-! ### POPCNT, BITIDX, SCAN (41_bit_utilities.md) -/

/-- R95: POPCNT leaves in CNT how many bits of its source are 1 and in Z whether there is none, and keeps every other register and
flag; its words. -/
def Obligations.PopcntCountsTheSetBits : Prop :=
  (∀ (src : Reg) (s : State), ∃ t : State, exec (.popcnt src) s = .next t ∧
    t.CNT.toNat = (cells (readReg s src)).length ∧ (getFlag t.STATUS .Z = true ↔ readReg s src = 0) ∧
    OnlyFlags [.Z] s.STATUS t.STATUS ∧ t = { s with CNT := t.CNT, STATUS := t.STATUS }) ∧
  (∀ (w : CmdWord) (src : Reg), decodeWord w = .ok (.popcnt src) ↔ w = 0x005 ||| (src.code.setWidth 32 <<< 4))

/-- R95 (90_conflicts.md C5): the three counts sum to 64 and the number of cells in both boards, so to 64 exactly when I1 holds. -/
def Obligations.CellCountsSumTo64ExactlyWhenDisjoint : Prop :=
  ∀ m o : Word, popcount m + popcount o + popcount (empty m o) = 64 + popcount (m &&& o) ∧
    (popcount m + popcount o + popcount (empty m o) = 64 ↔ m &&& o = 0)

/-- R96: BITIDX leaves in IDX the index of the source's lowest set bit, 64 for a source of 0; Z says the source is 0; PV is set
unless the source is a single bit and otherwise kept; every other register and flag is kept; its words. -/
def Obligations.BitidxFindsTheLowestBit : Prop :=
  (∀ (src : Reg) (s : State), ∃ t : State, exec (.bitidx src) s = .next t ∧
    (readReg s src = 0 → t.IDX = 64) ∧
    (readReg s src ≠ 0 → t.IDX.toNat < 64 ∧ (readReg s src).getLsbD t.IDX.toNat = true ∧
      ∀ i : Nat, i < t.IDX.toNat → (readReg s src).getLsbD i = false) ∧
    (∀ i : Nat, i < 64 → readReg s src = bit i → t.IDX.toNat = i) ∧
    (getFlag t.STATUS .Z = true ↔ readReg s src = 0) ∧
    (getFlag t.STATUS .PV = true ↔ getFlag s.STATUS .PV = true ∨ ¬∃ i : Nat, i < 64 ∧ readReg s src = bit i) ∧
    OnlyFlags [.Z, .PV] s.STATUS t.STATUS ∧ t = { s with IDX := t.IDX, STATUS := t.STATUS }) ∧
  (∀ (w : CmdWord) (src : Reg), decodeWord w = .ok (.bitidx src) ↔ w = 0x006 ||| (src.code.setWidth 32 <<< 4))

/-- R97: SCAN moves the lowest set bit of S to X, its index to IDX, and clears it in S; an empty S gives X = 0 and IDX = 64, and
no flag but Z is written; every other register is kept; its word is 0x007. -/
def Obligations.ScanTakesTheLowestBit : Prop :=
  (∀ s : State, ∃ t : State, exec .scan s = .next t ∧
    (s.S = 0 → t.X = 0 ∧ t.IDX = 64 ∧ t.S = 0) ∧
    (s.S ≠ 0 → t.IDX.toNat < 64 ∧ s.S.getLsbD t.IDX.toNat = true ∧
      (∀ i : Nat, i < t.IDX.toNat → s.S.getLsbD i = false) ∧ t.X = bit t.IDX.toNat ∧ t.S = s.S &&& ~~~bit t.IDX.toNat) ∧
    t.S = s.S &&& (s.S - 1) ∧ (getFlag t.STATUS .Z = true ↔ s.S = 0) ∧ OnlyFlags [.Z] s.STATUS t.STATUS ∧
    t = { s with X := t.X, IDX := t.IDX, S := t.S, STATUS := t.STATUS }) ∧
  (∀ w : CmdWord, decodeWord w = .ok .scan ↔ w = 0x007)

/-- R98: SCANs enumerate the cells of S in rising order: the j-th writes the j-th cell and its index with Z = 0, after the last S is
0, and one more writes X = 0, IDX = 64 and Z = 1; and clearing the isolated bit is `v & (v - 1)`. -/
def Obligations.ScansEnumerateInIndexOrder : Prop :=
  ∀ s : State,
    (∀ n : Nat, exec .scan (afterScans n s) = .next (afterScans (n + 1) s)) ∧
    (∀ (j : Nat) (h : j < (cells s.S).length),
      (afterScans (j + 1) s).X = bit (cells s.S)[j] ∧ (afterScans (j + 1) s).IDX.toNat = (cells s.S)[j] ∧
      getFlag (afterScans (j + 1) s).STATUS .Z = false) ∧
    (afterScans (cells s.S).length s).S = 0 ∧
    (afterScans ((cells s.S).length + 1) s).X = 0 ∧ (afterScans ((cells s.S).length + 1) s).IDX = 64 ∧
    getFlag (afterScans ((cells s.S).length + 1) s).STATUS .Z = true ∧
    (∀ v : Word, v &&& ~~~lsb v = v &&& (v - 1))

/-! ### GEN, CHK, CLASS (42_move_generation.md) -/

/-- R110, R111, R112: for every pair, those that break I1 too, the shift-and-mask datapath with five or more extension steps
computes exactly the legal destinations of the definition; and after `j` extension stages a lane holds exactly the cells `i` steps
from a mover cell, `1 ≤ i ≤ j + 1`, with every cell on the way, the last one too, on the board and in O. -/
def Obligations.GenDatapathMeetsTheDefinition : Prop :=
  (∀ (n : Nat) (m o : Word) (e : Nat), 5 ≤ n →
    ((movesWith n m o).getLsbD e = true ↔ LegalDestination m o e) ∧ movesWith n m o = getMoves m o) ∧
  (∀ (d : Direction) (m o : Word) (j c : Nat), (extendRun d o j (sh d m &&& o)).getLsbD c = true ↔
    ∃ a i : Nat, 1 ≤ i ∧ i ≤ j + 1 ∧ m.getLsbD a = true ∧ cellAt a d i = some c ∧
      ∀ i' : Nat, 1 ≤ i' → i' ≤ i → occupiedAt o a d i' = true)

/-- R113: only empty cells are legal, a side with no discs has no moves and no move captures nothing; the start position's moves. -/
def Obligations.LegalMovesAreEmptyCells : Prop :=
  (∀ m o : Word, getMoves m o &&& (m ||| o) = 0 ∧ getMoves 0 o = 0 ∧ getMoves m 0 = 0) ∧
  getMoves 0x0000000810000000 0x0000001008000000 = 0x0000102004080000 ∧ cells 0x0000102004080000 = [19, 26, 37, 44]

/-- R114: the population-count predicate holds exactly for a single bit that is a member of GM. -/
def Obligations.LegalIsMembershipOfASingleBit : Prop :=
  ∀ m o x : Word, legal m o x = true ↔ ∃ e : Nat, e < 64 ∧ x = bit e ∧ (getMoves m o).getLsbD e = true

/-- R115: GEN leaves in L exactly the legal destinations of the mover and in Z whether there is none; IV is set when the pair breaks
I1 and otherwise kept; every other register and flag is kept; its word is 0x008. -/
def Obligations.GenWritesTheLegalDestinations : Prop :=
  (∀ s : State, ∃ t : State, exec .gen s = .next t ∧
    (∀ e : Nat, t.L.getLsbD e = true ↔ LegalDestination s.M s.O e) ∧
    (getFlag t.STATUS .Z = true ↔ ∀ e : Nat, ¬LegalDestination s.M s.O e) ∧
    (getFlag t.STATUS .IV = true ↔ getFlag s.STATUS .IV = true ∨ s.M &&& s.O ≠ 0) ∧
    OnlyFlags [.Z, .IV] s.STATUS t.STATUS ∧ t = { s with L := t.L, STATUS := t.STATUS }) ∧
  (∀ w : CmdWord, decodeWord w = .ok .gen ↔ w = 0x008)

/-- R116: CHK leaves in LG whether X is one cell that is a legal destination; IV as in GEN; no register and no other flag changes; its
word is 0x009. -/
def Obligations.ChkTestsTheMoveOperand : Prop :=
  (∀ s : State, ∃ t : State, exec .chk s = .next t ∧
    (getFlag t.STATUS .LG = true ↔ LegalMove s.M s.O s.X) ∧
    (getFlag t.STATUS .IV = true ↔ getFlag s.STATUS .IV = true ∨ s.M &&& s.O ≠ 0) ∧
    OnlyFlags [.LG, .IV] s.STATUS t.STATUS ∧ t = { s with STATUS := t.STATUS }) ∧
  (∀ w : CmdWord, decodeWord w = .ok .chk ↔ w = 0x009)

/-- R117: CLASS leaves in Z that the mover has no move, in PS that only the other side has one, in TM that neither has; exactly one of
"Z is 0", PS and TM holds; IV as in GEN; no register and no other flag changes; its word is 0x00A. -/
def Obligations.ClassTellsPassFromTerminal : Prop :=
  (∀ s : State, ∃ t : State, exec .classify s = .next t ∧
    (getFlag t.STATUS .Z = true ↔ ∀ e : Nat, ¬LegalDestination s.M s.O e) ∧
    (getFlag t.STATUS .PS = true ↔ (∀ e : Nat, ¬LegalDestination s.M s.O e) ∧ ∃ e : Nat, LegalDestination s.O s.M e) ∧
    (getFlag t.STATUS .TM = true ↔ (∀ e : Nat, ¬LegalDestination s.M s.O e) ∧ ∀ e : Nat, ¬LegalDestination s.O s.M e) ∧
    ((getFlag t.STATUS .Z, getFlag t.STATUS .PS, getFlag t.STATUS .TM) ∈
      [(false, false, false), (true, true, false), (true, false, true)]) ∧
    (getFlag t.STATUS .IV = true ↔ getFlag s.STATUS .IV = true ∨ s.M &&& s.O ≠ 0) ∧
    OnlyFlags [.Z, .PS, .TM, .IV] s.STATUS t.STATUS ∧ t = { s with STATUS := t.STATUS }) ∧
  (∀ w : CmdWord, decodeWord w = .ok .classify ↔ w = 0x00A)

/-! ### FLIP, APPLY (43_flip_and_apply.md) -/

/-- R130: the flip function is exactly the set of cells that the directional walks from a single-cell move capture, and 0 for any
other operand; more than seven stages change no walk. -/
def Obligations.FlipSetIsTheCapturedCells : Prop :=
  (∀ (m o x : Word) (i : Nat), (flips m o x).getLsbD i = true ↔ FlippedBy m o x i) ∧
  (∀ m o x : Word, popcount x ≠ 1 → flips m o x = 0) ∧
  (∀ (d : Direction) (o : Word) (e n : Nat), 7 ≤ n →
    walkStages d o n 0 (sh d (bit e)) = walkStages d o walkLength 0 (sh d (bit e)))

/-- R131: only other cells are flipped, never the move's own cell; for an empty cell of a pair that meets I1 the flip set is
non-empty exactly when the move is legal; a multi-bit or zero operand flips nothing; and the two exceptions the rule
shows. -/
def Obligations.FlipSetLaws : Prop :=
  (∀ m o x : Word, flips m o x &&& ~~~o = 0 ∧ flips m o x &&& x = 0 ∧ (popcount x ≠ 1 → flips m o x = 0)) ∧
  (∀ (m o : Word) (e : Nat), m &&& o = 0 → e < 64 → (empty m o).getLsbD e = true →
    (flips m o (bit e) ≠ 0 ↔ legal m o (bit e) = true)) ∧
  (flips 0x18000000 0x1C000000 (bit 25) = 0 ∧ legal 0x18000000 0x1C000000 (bit 25) = true) ∧
  (flips 0x9 0x6 (bit 1) = bit 2 ∧ legal 0x9 0x6 (bit 1) = false)

/-- R133: FLIP leaves the captured cells in F; Z says there is none, LG that X is legal; PV is set when it is not, IV when the pair
breaks I1, and each is otherwise kept; every other register and flag is kept; its word is 0x00B. -/
def Obligations.FlipWritesTheCapturedCells : Prop :=
  (∀ s : State, ∃ t : State, exec .flip s = .next t ∧
    (∀ i : Nat, t.F.getLsbD i = true ↔ FlippedBy s.M s.O s.X i) ∧
    (getFlag t.STATUS .Z = true ↔ ∀ i : Nat, ¬FlippedBy s.M s.O s.X i) ∧
    (getFlag t.STATUS .LG = true ↔ LegalMove s.M s.O s.X) ∧
    (getFlag t.STATUS .PV = true ↔ getFlag s.STATUS .PV = true ∨ ¬LegalMove s.M s.O s.X) ∧
    (getFlag t.STATUS .IV = true ↔ getFlag s.STATUS .IV = true ∨ s.M &&& s.O ≠ 0) ∧
    OnlyFlags [.Z, .LG, .PV, .IV] s.STATUS t.STATUS ∧ t = { s with F := t.F, STATUS := t.STATUS }) ∧
  (∀ w : CmdWord, decodeWord w = .ok .flip ↔ w = 0x00B)

/-- R134, R132: APPLY gives the mover the cells of X and the captured cells, takes the captured cells from the other side and leaves
them in F, whether or not X is legal; the flags as in FLIP, about the pair from before; every other register and flag is kept;
its word is 0x00C. -/
def Obligations.ApplyPlaysTheMove : Prop :=
  (∀ s : State, ∃ t : State, exec .apply s = .next t ∧
    (∀ i : Nat, t.F.getLsbD i = true ↔ FlippedBy s.M s.O s.X i) ∧
    t.M = s.M ||| s.X ||| t.F ∧ t.O = s.O &&& ~~~t.F ∧
    (getFlag t.STATUS .Z = true ↔ ∀ i : Nat, ¬FlippedBy s.M s.O s.X i) ∧
    (getFlag t.STATUS .LG = true ↔ LegalMove s.M s.O s.X) ∧
    (getFlag t.STATUS .PV = true ↔ getFlag s.STATUS .PV = true ∨ ¬LegalMove s.M s.O s.X) ∧
    (getFlag t.STATUS .IV = true ↔ getFlag s.STATUS .IV = true ∨ s.M &&& s.O ≠ 0) ∧
    OnlyFlags [.Z, .LG, .PV, .IV] s.STATUS t.STATUS ∧
    t = { s with M := t.M, O := t.O, F := t.F, STATUS := t.STATUS }) ∧
  (∀ w : CmdWord, decodeWord w = .ok .apply ↔ w = 0x00C)

/-- R135: after APPLY of a legal move to a pair that meets I1, the boards are disjoint, the mover has one cell more and the flipped
ones, the other side the flipped ones fewer, one cell fewer is empty, and at least one cell is flipped. -/
def Obligations.LegalApplyConservesTheBoard : Prop :=
  ∀ s : State, s.I1 → legal s.M s.O s.X = true → ∃ t : State, exec .apply s = .next t ∧
    t.M &&& t.O = 0 ∧ popcount t.M = popcount s.M + 1 + popcount (flips s.M s.O s.X) ∧
    popcount t.O + popcount (flips s.M s.O s.X) = popcount s.O ∧
    popcount (empty t.M t.O) + 1 = popcount (empty s.M s.O) ∧
    popcount t.M + popcount t.O + popcount (empty t.M t.O) = 64 ∧ 1 ≤ popcount (flips s.M s.O s.X)

/-! ### The host's search contract (49_host_search.md) -/

/-- R151 to R154: what a search answers at a terminal node, at a pass node, at depth 0 and for a negative depth. The window passed at a
pass node is a free argument of the model (DESIGN CHOICE, notes/assumptions/15.md), of which `(-beta, -alpha)`, what R153 writes and
marks as general knowledge, is one value; scores are integers of any size (DESIGN CHOICE, notes/assumptions/14.md). -/
def Obligations.SearchLeavesFollowTheContract : Prop :=
  ∀ (P : SearchParams) (m o : Word) (depth alpha beta : Int),
    (getMoves m o = 0 → getMoves o m = 0 → negamax P m o depth alpha beta = ⟨0, P.terminal m o⟩) ∧
    (getMoves m o = 0 → getMoves o m ≠ 0 → negamax P m o depth alpha beta =
      ⟨0, -(negamax P o m depth (P.passWindow alpha beta).1 (P.passWindow alpha beta).2).score⟩) ∧
    (getMoves m o ≠ 0 → (negamax P m o 0 alpha beta).score = P.eval m o) ∧
    (depth < 0 → negamax P m o depth alpha beta = negamax P m o 0 alpha beta)

/-- R150, R157: whatever the host's choices, at every depth and window, a search returns no move (zero) or a single bit that is a member
of GM. At depth 0 the model returns a host's choice that is such a move and zero for any other (DESIGN CHOICE,
notes/assumptions/15.md); at a positive depth the claim is about the loop R155 writes, with no budget (notes/assumptions/14.md). -/
def Obligations.SearchMoveIsZeroOrLegal : Prop :=
  ∀ (P : SearchParams) (m o : Word) (depth alpha beta : Int),
    (negamax P m o depth alpha beta).move = 0 ∨ legal m o (negamax P m o depth alpha beta).move = true

/-- R157, R159 P3: with host choices that meet the contract, a search of positive depth from a position with a move returns a single
bit that is a member of GM; from a position without one it returns no move. The claim rests on the model's choices that scores are
integers of any size and that no budget stops the search (DESIGN CHOICE, notes/assumptions/14.md: unsafe for a host that differs), and
on the initial best score and the update order that R155 marks as general knowledge (PRESUMED, notes/assumptions/15.md). -/
def Obligations.SearchReturnsALegalMove : Prop :=
  ∀ (P : SearchParams) (bound : Int), P.Meets bound → ∀ (m o : Word) (depth alpha beta : Int),
    (getMoves m o ≠ 0 → 0 < depth → legal m o (negamax P m o depth alpha beta).move = true) ∧
    (getMoves m o = 0 → (negamax P m o depth alpha beta).move = 0)
end

