-- ==== Sys2Proof/Laws/Bits.lean ====
section
/-! SUPPORT. What the bit primitives and the STATUS field operations do: one lemma for each operation. -/

namespace Sys2Proof.Machine

/-! ### Single bits -/

/-- Bit `j` of `bit(i)`. -/
theorem getLsbD_bit (i j : Nat) : (bit i).getLsbD j = (decide (j < 64) && decide (j = i)) := by
  rw [bit, BitVec.getLsbD_shiftLeft, BitVec.getLsbD_one, Bool.eq_iff_iff]
  simp only [Bool.and_eq_true, Bool.not_eq_true', decide_eq_true_eq, decide_eq_false_iff_not]
  omega

/-- `bit` is injective on the cells of the board. -/
theorem bit_injective {i j : Nat} (hi : i < 64) (h : bit i = bit j) : i = j := by
  have h' := congrArg (fun v => BitVec.getLsbD v i) h
  simp only [getLsbD_bit, hi] at h'
  simpa using h'

/-- A value with bit `i` set is not 0. -/
theorem ne_zero_of_getLsbD {v : Word} {i : Nat} (h : v.getLsbD i = true) : v ≠ 0 := by
  rintro rfl
  simp at h

/-- A value that is not 0 has a set bit. -/
theorem exists_getLsbD_of_ne_zero {v : Word} (h : v ≠ 0) : ∃ i, i < 64 ∧ v.getLsbD i = true := by
  by_contra hn
  push Not at hn
  apply h
  apply BitVec.eq_of_getLsbD_eq
  intro i hi
  simpa using hn i hi

/-- A value is 0 exactly when none of its bits is set. -/
theorem eq_zero_iff_getLsbD (v : Word) : v = 0 ↔ ∀ i, v.getLsbD i = false := by
  constructor
  · rintro rfl
    simp
  · intro h
    by_contra hv
    obtain ⟨i, -, hi⟩ := exists_getLsbD_of_ne_zero hv
    simp [h i] at hi

/-! ### Fields of STATUS -/

theorem place_lt (f : Flag) : f.place < 64 := by cases f <;> decide

theorem place_injective {f g : Flag} (h : f.place = g.place) : f = g := by
  cases f <;> cases g <;> simp_all [Flag.place]

/-- `put(F, b)` writes the field's bit and no other. -/
theorem getLsbD_putFlag (st : Word) (f : Flag) (b : Bool) (i : Nat) :
    (putFlag st f b).getLsbD i = if i = f.place then b else st.getLsbD i := by
  have hf := place_lt f
  have hst : 64 ≤ i → st.getLsbD i = false := fun h => BitVec.getLsbD_of_ge _ i h
  cases b <;> by_cases h : i = f.place <;> by_cases hi : i < 64 <;>
    simp only [putFlag, if_true, if_false, Bool.false_eq_true, BitVec.getLsbD_and, BitVec.getLsbD_or, BitVec.getLsbD_not,
      getLsbD_bit, h, hi, hf, decide_true, decide_false, Bool.and_true, Bool.and_false, Bool.not_true,
      Bool.not_false, Bool.or_true, Bool.or_false]
  exact (hst (by omega)).symm

/-- `if b then set(F)` sets the field's bit or changes nothing. -/
theorem getLsbD_setFlagIf (st : Word) (f : Flag) (b : Bool) (i : Nat) :
    (setFlagIf st f b).getLsbD i = if i = f.place then (b || st.getLsbD i) else st.getLsbD i := by
  cases b <;> simp [setFlagIf, getLsbD_putFlag]

@[simp] theorem getFlag_putFlag (st : Word) (f g : Flag) (b : Bool) :
    getFlag (putFlag st f b) g = if g = f then b else getFlag st g := by
  unfold getFlag
  rw [getLsbD_putFlag]
  by_cases h : g = f
  · simp [h]
  · have : g.place ≠ f.place := fun e => h (place_injective e)
    simp [h, this]

@[simp] theorem getFlag_setFlagIf (st : Word) (f g : Flag) (b : Bool) :
    getFlag (setFlagIf st f b) g = if g = f then (b || getFlag st g) else getFlag st g := by
  cases b <;> simp [setFlagIf]

/-- The bits of the fields are those of the mask. -/
theorem getLsbD_statusFields_place (f : Flag) : statusFields.getLsbD f.place = true := by
  cases f <;> decide

/-- Writing a field leaves the reserved bits 0 (R26). -/
theorem putFlag_reserved {st : Word} (h : st &&& ~~~statusFields = 0) (f : Flag) (b : Bool) :
    putFlag st f b &&& ~~~statusFields = 0 := by
  rw [eq_zero_iff_getLsbD] at h ⊢
  intro i
  have hi := h i
  rw [BitVec.getLsbD_and] at hi ⊢
  rw [getLsbD_putFlag]
  split
  · subst_vars
    rw [BitVec.getLsbD_not, getLsbD_statusFields_place]
    simp
  · exact hi

theorem setFlagIf_reserved {st : Word} (h : st &&& ~~~statusFields = 0) (f : Flag) (b : Bool) :
    setFlagIf st f b &&& ~~~statusFields = 0 := by
  cases b
  · exact h
  · exact putFlag_reserved h f true

/-- The pair breaks I1 exactly when the intersection is not empty. -/
@[simp] theorem overlaps_iff (m o : Word) : overlaps m o = true ↔ m &&& o ≠ 0 := by simp [overlaps]

/-! ### Population count -/

/-- `onesBelow v n` counts the indices below `n` whose bit is 1. -/
theorem onesBelow_eq_countP (v : Word) (n : Nat) :
    onesBelow v n = (List.range n).countP (fun i => v.getLsbD i) := by
  induction n with
  | zero => rfl
  | succ n ih =>
    rw [onesBelow, ih, List.range_succ, List.countP_append]
    cases h : v.getLsbD n <;> simp [h]

theorem onesBelow_le (v : Word) (n : Nat) : onesBelow v n ≤ n := by
  rw [onesBelow_eq_countP]
  simpa using List.countP_le_length (p := fun i => v.getLsbD i) (l := List.range n)

/-- A population count is at most 64 (R9), so it fits in CNT. -/
theorem popcount_le (v : Word) : popcount v ≤ 64 := onesBelow_le v 64

/-- A bit index or count of at most 64 is held in seven bits as it is (R24). -/
theorem toNarrow_toNat {n : Nat} (h : n ≤ 64) : (toNarrow n).toNat = n := by
  simp [toNarrow]
  omega

/-! ### Bit scan -/

/-- What `firstOne` answers: no bit from the start up to it is set, and it is either past the range or a set bit. -/
theorem firstOne_spec (v : Word) (n i : Nat) :
    i ≤ firstOne v n i ∧ firstOne v n i ≤ i + n ∧ (∀ j, i ≤ j → j < firstOne v n i → v.getLsbD j = false) ∧
      (firstOne v n i < i + n → v.getLsbD (firstOne v n i) = true) := by
  induction n generalizing i with
  | zero => exact ⟨le_rfl, le_rfl, fun j h h' => absurd h' (by simp only [firstOne]; omega), fun h => by simp [firstOne] at h⟩
  | succ n ih =>
    obtain ⟨h1, h2, h3, h4⟩ := ih (i + 1)
    by_cases hb : v.getLsbD i = true
    · simp only [firstOne, hb, if_true]
      exact ⟨le_rfl, by omega, fun j h h' => absurd h' (by omega), fun _ => trivial⟩
    · simp only [firstOne, hb, if_false, Bool.false_eq_true]
      refine ⟨by omega, by omega, fun j h h' => ?_, fun h => h4 (by omega)⟩
      rcases Nat.lt_or_ge i j with hij | hij
      · exact h3 j hij h'
      · obtain rfl : j = i := by omega
        simpa using hb

/-- `ctz` is at most 64 (R24), so it fits in IDX. -/
theorem ctz_le (v : Word) : ctz v ≤ 64 := by
  simpa [ctz] using (firstOne_spec v 64 0).2.1

/-- A bit of `lsb(v)` is set when it is set in `v` and no lower one is (R9). -/
theorem getLsbD_lsb (v : Word) (i : Nat) :
    (lsb v).getLsbD i = true ↔ v.getLsbD i = true ∧ ∀ j, j < i → v.getLsbD j = false := by
  have hneg : neg v = -v := (BitVec.neg_eq_not_add v).symm
  rw [lsb, hneg, BitVec.getLsbD_and, BitVec.getLsbD_neg, Bool.and_eq_true]
  refine and_congr_right fun hv => ?_
  have hi : i < 64 := by
    by_contra h
    simp [BitVec.getLsbD_of_ge v i (by omega)] at hv
  simp only [hv, hi, decide_true, Bool.true_and, Bool.true_xor, Bool.not_eq_true', decide_eq_false_iff_not]
  push Not
  simp

/-- A value has a population count of 1 exactly when it is the pattern of one cell (R9 `single`). -/
theorem single_iff (v : Word) : single v = true ↔ ∃ e, e < 64 ∧ v = bit e := by
  rw [single, popcount, onesBelow_eq_countP, beq_iff_eq, List.countP_eq_length_filter, List.length_eq_one_iff]
  have hmem : ∀ i, i ∈ (List.range 64).filter (fun i => v.getLsbD i) ↔ v.getLsbD i = true := fun i => by
    rw [List.mem_filter, List.mem_range, and_iff_right_iff_imp]
    intro h
    by_contra hi
    simp [BitVec.getLsbD_of_ge v i (by omega)] at h
  constructor
  · rintro ⟨e, he⟩
    have hbits : ∀ i, v.getLsbD i = true ↔ i = e := fun i => by rw [← hmem, he, List.mem_singleton]
    have he64 : e < 64 := by
      by_contra h
      have := (hbits e).2 rfl
      simp [BitVec.getLsbD_of_ge v e (by omega)] at this
    refine ⟨e, he64, BitVec.eq_of_getLsbD_eq fun i hi => ?_⟩
    rw [getLsbD_bit, Bool.eq_iff_iff, hbits]
    simp [hi]
  · rintro ⟨e, he, rfl⟩
    refine ⟨e, ?_⟩
    have hnodup : ((List.range 64).filter (fun i => (bit e).getLsbD i)).Nodup := List.nodup_range.filter _
    refine List.perm_singleton.1 ((List.perm_ext_iff_of_nodup hnodup (List.nodup_singleton e)).2 fun i => ?_)
    rw [hmem, getLsbD_bit, List.mem_singleton]
    simp only [Bool.and_eq_true, decide_eq_true_eq]
    exact ⟨fun h => h.2, fun h => ⟨h ▸ he, h⟩⟩

end Sys2Proof.Machine
end

