-- ==== Sys2Proof/Laws/Board.lean ====
section
/-! SUPPORT. What the direction shift, the GEN datapath and the flip lanes do, one lemma for each. -/

namespace Sys2Proof.Machine

/-- The direction that undoes a step (R80). -/
def opposite : Direction → Direction
  | .N => .S
  | .S => .N
  | .E => .W
  | .W => .E
  | .NE => .SW
  | .SW => .NE
  | .NW => .SE
  | .SE => .NW

/-- Every direction is one of the eight the commands use. -/
theorem mem_allDirections (d : Direction) : d ∈ allDirections := by cases d <;> decide

theorem getLsbD_notCol0 : ∀ i, i < 64 → notCol0.getLsbD i = decide (i % 8 ≠ 0) := by decide

theorem getLsbD_notCol7 : ∀ i, i < 64 → notCol7.getLsbD i = decide (i % 8 ≠ 7) := by decide

theorem getLsbD_fullMask : ∀ i, i < 64 → (0xFFFFFFFFFFFFFFFF : Word).getLsbD i = true := by decide

/-- The neighbour of a cell is occupied: the row and column steps of R80 stay on the board and the cell there is set. -/
theorem occupiedAt_one (v : Word) (i : Nat) (d : Direction) :
    occupiedAt v i d 1 = true ↔
      (0 ≤ ((i / 8 : Nat) : Int) + rowStep d ∧ ((i / 8 : Nat) : Int) + rowStep d < 8 ∧
          0 ≤ ((i % 8 : Nat) : Int) + colStep d ∧ ((i % 8 : Nat) : Int) + colStep d < 8) ∧
        v.getLsbD ((((i / 8 : Nat) : Int) + rowStep d).toNat * 8 + (((i % 8 : Nat) : Int) + colStep d).toNat) = true := by
  unfold occupiedAt cellAt
  simp only [Nat.cast_one, one_mul]
  split
  · rename_i h
    split at h
    · rename_i hb
      obtain rfl := Option.some.inj h
      exact ⟨fun hv => ⟨hb, hv⟩, fun hv => hv.2⟩
    · cases h
  · rename_i h
    split at h
    · cases h
    · rename_i hb
      exact ⟨fun hv => absurd hv Bool.false_ne_true, fun hv => absurd hv.1 hb⟩

/-- Two ways to name a bit agree where the conditions on its index do. -/
theorem and_getLsbD_congr (v : Word) {p q : Prop} {j k : Nat} (h : j < 64 ∨ k < 64 → (p ↔ q)) (hjk : q → p → j = k) :
    (p ∧ v.getLsbD j = true) ↔ (q ∧ v.getLsbD k = true) := by
  have hlt : ∀ k, v.getLsbD k = true → k < 64 := fun k hk => by
    by_contra h
    simp [BitVec.getLsbD_of_ge v k (by omega)] at hk
  constructor
  · rintro ⟨hp, hv⟩
    have hq := (h (.inl (hlt _ hv))).1 hp
    exact ⟨hq, hjk hq hp ▸ hv⟩
  · rintro ⟨hq, hv⟩
    have hp := (h (.inr (hlt _ hv))).2 hq
    exact ⟨hp, hjk hq hp ▸ hv⟩

/-- R82 by cells: after one step in direction `d`, cell `i` is occupied when its neighbour on the other side was. -/
theorem getLsbD_sh (d : Direction) (v : Word) (i : Nat) (hi : i < 64) :
    (sh d v).getLsbD i = occupiedAt v i (opposite d) 1 := by
  rw [Bool.eq_iff_iff, occupiedAt_one, sh, BitVec.getLsbD_and]
  have hr : i = 8 * (i / 8) + i % 8 := by omega
  have hc : i % 8 < 8 := by omega
  generalize i / 8 = r at *
  generalize i % 8 = c at *
  cases d <;>
    simp only [shiftDir, edgeMask, opposite, rowStep, colStep, getLsbD_notCol0 i hi, getLsbD_notCol7 i hi, getLsbD_fullMask i hi,
      BitVec.getLsbD_shiftLeft, BitVec.getLsbD_ushiftRight, hi, decide_true, Bool.true_and, Bool.and_true, Bool.and_eq_true,
      decide_eq_true_eq, Bool.not_eq_true', decide_eq_false_iff_not, and_right_comm]
  · exact (iff_of_eq (true_and _)).symm.trans
      (and_getLsbD_congr v (fun h => ⟨fun _ => by omega, fun _ => trivial⟩) (fun h _ => by omega))
  · exact and_getLsbD_congr v (fun h => by omega) (fun h h' => by omega)
  · exact and_getLsbD_congr v (fun h => by omega) (fun h h' => by omega)
  · exact and_comm.trans (and_getLsbD_congr v (fun h => by omega) (fun h h' => by omega))
  · exact and_comm.trans (and_getLsbD_congr v (fun h => by omega) (fun h h' => by omega))
  · exact and_comm.trans (and_getLsbD_congr v (fun h => by omega) (fun h h' => by omega))
  · exact and_getLsbD_congr v (fun h => by omega) (fun h h' => by omega)
  · exact and_getLsbD_congr v (fun h => by omega) (fun h h' => by omega)

/-- The join of a value for each direction has the bits of all of them. -/
theorem getLsbD_joinDirections (f : Direction → Word) (l : List Direction) (acc : Word) (i : Nat) :
    (l.foldl (fun acc d => acc ||| f d) acc).getLsbD i = true ↔
      acc.getLsbD i = true ∨ ∃ d ∈ l, (f d).getLsbD i = true := by
  induction l generalizing acc with
  | nil => simp
  | cons d l ih =>
    rw [List.foldl_cons, ih, BitVec.getLsbD_or, Bool.or_eq_true]
    simp [or_assoc]

/-- R111: a bit of the datapath's result is a bit of one of the lanes. -/
theorem getLsbD_movesWith (n : Nat) (m o : Word) (i : Nat) :
    (movesWith n m o).getLsbD i = true ↔ ∃ d, (laneMoves n m o d).getLsbD i = true := by
  rw [movesWith, getLsbD_joinDirections]
  simp [mem_allDirections]

/-- R130: a bit of the flip set of a single cell is a bit of one of the lanes. -/
theorem getLsbD_flips (m o x : Word) (i : Nat) :
    (flips m o x).getLsbD i = true ↔ single x = true ∧ ∃ d, (laneFlips m o x d).getLsbD i = true := by
  unfold flips
  split
  · rename_i h
    rw [getLsbD_joinDirections]
    simp [mem_allDirections, h]
  · rename_i h
    simp [h]

/-- R130: the first stage of a chain stops at a cell that is not an `other` cell and otherwise adds it and steps outward. -/
theorem walkStages_succ (d : Direction) (o : Word) (n : Nat) (f c : Word) :
    walkStages d o (n + 1) f c = if c &&& o = 0 then (f, c) else walkStages d o n (f ||| c) (sh d c) := rfl

/-- R111: one extension step more is an extension of what one step gives. -/
theorem extendRun_succ (d : Direction) (o : Word) (n : Nat) (t : Word) :
    extendRun d o (n + 1) t = extendRun d o n (t ||| (sh d t &&& o)) := rfl

end Sys2Proof.Machine
end

