-- ==== Sys2Proof/Laws/PerInstr.lean ====
section
/-! SUPPORT. Facts about every command as syntax, one lemma for each constructor of Instr. -/

namespace Sys2Proof.Laws.FieldsOfEncoding

/-- The fields of a command's word (30_encoding.md R70, R73): OP is the command's opcode, at most 12, and RSV is 0; SRC and DST hold the
select codes of its operands. -/
def Statement (i : Instr) : Prop :=
  opField (encode i) = i.opcode ∧ i.opcode.toNat ≤ 12 ∧ rsvField (encode i) = 0 ∧
    (srcField (encode i), dstField (encode i)) =
      match i with
      | .mov dst src => (src.code, dst.code)
      | .popcnt src | .bitidx src => (src.code, 0)
      | .nop | .init | .swap | .clrst | .scan | .gen | .chk | .classify | .flip | .apply => (0, 0)

theorem nop : Statement .nop := by unfold Statement; decide
theorem init : Statement .init := by unfold Statement; decide
theorem swap : Statement .swap := by unfold Statement; decide
theorem mov (dst src : Reg) : Statement (.mov dst src) := by cases dst <;> cases src <;> (unfold Statement; decide)
theorem clrst : Statement .clrst := by unfold Statement; decide
theorem popcnt (src : Reg) : Statement (.popcnt src) := by cases src <;> (unfold Statement; decide)
theorem bitidx (src : Reg) : Statement (.bitidx src) := by cases src <;> (unfold Statement; decide)
theorem scan : Statement .scan := by unfold Statement; decide
theorem gen : Statement .gen := by unfold Statement; decide
theorem chk : Statement .chk := by unfold Statement; decide
theorem classify : Statement .classify := by unfold Statement; decide
theorem flip : Statement .flip := by unfold Statement; decide
theorem apply : Statement .apply := by unfold Statement; decide

end Sys2Proof.Laws.FieldsOfEncoding
end

