-- ==== Sys2Proof/Laws/State.lean ====
section
/-! SUPPORT. For each update of the state that the model makes by a named operation, what each field is afterwards. -/

namespace Sys2Proof.Machine

variable (s : State)

/-! `recordError` writes STATUS only. -/

@[simp] theorem recordError_M (f : Flag) (b : Bool) : (recordError f b s).M = s.M := rfl
@[simp] theorem recordError_O (f : Flag) (b : Bool) : (recordError f b s).O = s.O := rfl
@[simp] theorem recordError_X (f : Flag) (b : Bool) : (recordError f b s).X = s.X := rfl
@[simp] theorem recordError_L (f : Flag) (b : Bool) : (recordError f b s).L = s.L := rfl
@[simp] theorem recordError_F (f : Flag) (b : Bool) : (recordError f b s).F = s.F := rfl
@[simp] theorem recordError_S (f : Flag) (b : Bool) : (recordError f b s).S = s.S := rfl
@[simp] theorem recordError_CNT (f : Flag) (b : Bool) : (recordError f b s).CNT = s.CNT := rfl
@[simp] theorem recordError_IDX (f : Flag) (b : Bool) : (recordError f b s).IDX = s.IDX := rfl
@[simp] theorem recordError_STATUS (f : Flag) (b : Bool) : (recordError f b s).STATUS = setFlagIf s.STATUS f b := rfl
@[simp] theorem recordError_pending (f : Flag) (b : Bool) : (recordError f b s).pending = s.pending := rfl
@[simp] theorem recordError_replies (f : Flag) (b : Bool) : (recordError f b s).replies = s.replies := rfl

/-! `putResult` writes STATUS only. -/

@[simp] theorem putResult_M (f : Flag) (b : Bool) : (putResult f b s).M = s.M := rfl
@[simp] theorem putResult_O (f : Flag) (b : Bool) : (putResult f b s).O = s.O := rfl
@[simp] theorem putResult_X (f : Flag) (b : Bool) : (putResult f b s).X = s.X := rfl
@[simp] theorem putResult_L (f : Flag) (b : Bool) : (putResult f b s).L = s.L := rfl
@[simp] theorem putResult_F (f : Flag) (b : Bool) : (putResult f b s).F = s.F := rfl
@[simp] theorem putResult_S (f : Flag) (b : Bool) : (putResult f b s).S = s.S := rfl
@[simp] theorem putResult_CNT (f : Flag) (b : Bool) : (putResult f b s).CNT = s.CNT := rfl
@[simp] theorem putResult_IDX (f : Flag) (b : Bool) : (putResult f b s).IDX = s.IDX := rfl
@[simp] theorem putResult_STATUS (f : Flag) (b : Bool) : (putResult f b s).STATUS = putFlag s.STATUS f b := rfl
@[simp] theorem putResult_pending (f : Flag) (b : Bool) : (putResult f b s).pending = s.pending := rfl
@[simp] theorem putResult_replies (f : Flag) (b : Bool) : (putResult f b s).replies = s.replies := rfl

/-! `recordIllegal` writes STATUS only. -/

@[simp] theorem recordIllegal_M : (recordIllegal s).M = s.M := rfl
@[simp] theorem recordIllegal_O : (recordIllegal s).O = s.O := rfl
@[simp] theorem recordIllegal_X : (recordIllegal s).X = s.X := rfl
@[simp] theorem recordIllegal_L : (recordIllegal s).L = s.L := rfl
@[simp] theorem recordIllegal_F : (recordIllegal s).F = s.F := rfl
@[simp] theorem recordIllegal_S : (recordIllegal s).S = s.S := rfl
@[simp] theorem recordIllegal_CNT : (recordIllegal s).CNT = s.CNT := rfl
@[simp] theorem recordIllegal_IDX : (recordIllegal s).IDX = s.IDX := rfl
@[simp] theorem recordIllegal_STATUS : (recordIllegal s).STATUS = putFlag s.STATUS .IC true := rfl
@[simp] theorem recordIllegal_pending : (recordIllegal s).pending = s.pending := rfl
@[simp] theorem recordIllegal_replies : (recordIllegal s).replies = s.replies := rfl

/-! `recordOverlap` writes STATUS only. -/

@[simp] theorem recordOverlap_M (m o : Word) : (recordOverlap m o s).M = s.M := rfl
@[simp] theorem recordOverlap_O (m o : Word) : (recordOverlap m o s).O = s.O := rfl
@[simp] theorem recordOverlap_X (m o : Word) : (recordOverlap m o s).X = s.X := rfl
@[simp] theorem recordOverlap_L (m o : Word) : (recordOverlap m o s).L = s.L := rfl
@[simp] theorem recordOverlap_F (m o : Word) : (recordOverlap m o s).F = s.F := rfl
@[simp] theorem recordOverlap_S (m o : Word) : (recordOverlap m o s).S = s.S := rfl
@[simp] theorem recordOverlap_CNT (m o : Word) : (recordOverlap m o s).CNT = s.CNT := rfl
@[simp] theorem recordOverlap_IDX (m o : Word) : (recordOverlap m o s).IDX = s.IDX := rfl
@[simp] theorem recordOverlap_STATUS (m o : Word) : (recordOverlap m o s).STATUS = setFlagIf s.STATUS .IV (overlaps m o) := rfl
@[simp] theorem recordOverlap_pending (m o : Word) : (recordOverlap m o s).pending = s.pending := rfl
@[simp] theorem recordOverlap_replies (m o : Word) : (recordOverlap m o s).replies = s.replies := rfl

/-! `recordMove` writes STATUS only. -/

@[simp] theorem recordMove_M (v m o : Word) (lg : Bool) : (recordMove v lg m o s).M = s.M := rfl
@[simp] theorem recordMove_O (v m o : Word) (lg : Bool) : (recordMove v lg m o s).O = s.O := rfl
@[simp] theorem recordMove_X (v m o : Word) (lg : Bool) : (recordMove v lg m o s).X = s.X := rfl
@[simp] theorem recordMove_L (v m o : Word) (lg : Bool) : (recordMove v lg m o s).L = s.L := rfl
@[simp] theorem recordMove_F (v m o : Word) (lg : Bool) : (recordMove v lg m o s).F = s.F := rfl
@[simp] theorem recordMove_S (v m o : Word) (lg : Bool) : (recordMove v lg m o s).S = s.S := rfl
@[simp] theorem recordMove_CNT (v m o : Word) (lg : Bool) : (recordMove v lg m o s).CNT = s.CNT := rfl
@[simp] theorem recordMove_IDX (v m o : Word) (lg : Bool) : (recordMove v lg m o s).IDX = s.IDX := rfl
@[simp] theorem recordMove_STATUS (v m o : Word) (lg : Bool) : (recordMove v lg m o s).STATUS = setFlagIf (setFlagIf (putFlag (putFlag s.STATUS .Z (v == 0)) .LG lg) .PV (!lg)) .IV (overlaps m o) := rfl
@[simp] theorem recordMove_pending (v m o : Word) (lg : Bool) : (recordMove v lg m o s).pending = s.pending := rfl
@[simp] theorem recordMove_replies (v m o : Word) (lg : Bool) : (recordMove v lg m o s).replies = s.replies := rfl

/-! `answer` writes the replies only. -/

@[simp] theorem answer_M (r : Reply) : (answer r s).M = s.M := rfl
@[simp] theorem answer_O (r : Reply) : (answer r s).O = s.O := rfl
@[simp] theorem answer_X (r : Reply) : (answer r s).X = s.X := rfl
@[simp] theorem answer_L (r : Reply) : (answer r s).L = s.L := rfl
@[simp] theorem answer_F (r : Reply) : (answer r s).F = s.F := rfl
@[simp] theorem answer_S (r : Reply) : (answer r s).S = s.S := rfl
@[simp] theorem answer_CNT (r : Reply) : (answer r s).CNT = s.CNT := rfl
@[simp] theorem answer_IDX (r : Reply) : (answer r s).IDX = s.IDX := rfl
@[simp] theorem answer_STATUS (r : Reply) : (answer r s).STATUS = s.STATUS := rfl
@[simp] theorem answer_pending (r : Reply) : (answer r s).pending = s.pending := rfl
@[simp] theorem answer_replies (r : Reply) : (answer r s).replies = s.replies ++ [r] := rfl

/-! `resetBlock` clears every register and keeps the host's side of the port. -/

@[simp] theorem resetBlock_M : (resetBlock s).M = 0 := rfl
@[simp] theorem resetBlock_O : (resetBlock s).O = 0 := rfl
@[simp] theorem resetBlock_X : (resetBlock s).X = 0 := rfl
@[simp] theorem resetBlock_L : (resetBlock s).L = 0 := rfl
@[simp] theorem resetBlock_F : (resetBlock s).F = 0 := rfl
@[simp] theorem resetBlock_S : (resetBlock s).S = 0 := rfl
@[simp] theorem resetBlock_CNT : (resetBlock s).CNT = 0 := rfl
@[simp] theorem resetBlock_IDX : (resetBlock s).IDX = 0 := rfl
@[simp] theorem resetBlock_STATUS : (resetBlock s).STATUS = 0 := rfl
@[simp] theorem resetBlock_pending : (resetBlock s).pending = s.pending := rfl
@[simp] theorem resetBlock_replies : (resetBlock s).replies = s.replies := rfl

/-! `withFetchWord` writes the pending events only. -/

@[simp] theorem withFetchWord_M (n w : Nat) : (s.withFetchWord n w).M = s.M := rfl
@[simp] theorem withFetchWord_O (n w : Nat) : (s.withFetchWord n w).O = s.O := rfl
@[simp] theorem withFetchWord_X (n w : Nat) : (s.withFetchWord n w).X = s.X := rfl
@[simp] theorem withFetchWord_L (n w : Nat) : (s.withFetchWord n w).L = s.L := rfl
@[simp] theorem withFetchWord_F (n w : Nat) : (s.withFetchWord n w).F = s.F := rfl
@[simp] theorem withFetchWord_S (n w : Nat) : (s.withFetchWord n w).S = s.S := rfl
@[simp] theorem withFetchWord_CNT (n w : Nat) : (s.withFetchWord n w).CNT = s.CNT := rfl
@[simp] theorem withFetchWord_IDX (n w : Nat) : (s.withFetchWord n w).IDX = s.IDX := rfl
@[simp] theorem withFetchWord_STATUS (n w : Nat) : (s.withFetchWord n w).STATUS = s.STATUS := rfl
@[simp] theorem withFetchWord_pending (n w : Nat) : (s.withFetchWord n w).pending = .access (cmdWrite (tableWrite n w)) :: s.pending := rfl
@[simp] theorem withFetchWord_replies (n w : Nat) : (s.withFetchWord n w).replies = s.replies := rfl

/-! `offer` writes the pending events only. -/

@[simp] theorem offer_M (ms : List (List HostAccess)) : (offer ms s).M = s.M := rfl
@[simp] theorem offer_O (ms : List (List HostAccess)) : (offer ms s).O = s.O := rfl
@[simp] theorem offer_X (ms : List (List HostAccess)) : (offer ms s).X = s.X := rfl
@[simp] theorem offer_L (ms : List (List HostAccess)) : (offer ms s).L = s.L := rfl
@[simp] theorem offer_F (ms : List (List HostAccess)) : (offer ms s).F = s.F := rfl
@[simp] theorem offer_S (ms : List (List HostAccess)) : (offer ms s).S = s.S := rfl
@[simp] theorem offer_CNT (ms : List (List HostAccess)) : (offer ms s).CNT = s.CNT := rfl
@[simp] theorem offer_IDX (ms : List (List HostAccess)) : (offer ms s).IDX = s.IDX := rfl
@[simp] theorem offer_STATUS (ms : List (List HostAccess)) : (offer ms s).STATUS = s.STATUS := rfl
@[simp] theorem offer_pending (ms : List (List HostAccess)) : (offer ms s).pending = s.pending ++ (serialize ms).map .access := rfl
@[simp] theorem offer_replies (ms : List (List HostAccess)) : (offer ms s).replies = s.replies := rfl

/-! `writeReg` writes one data register and nothing else; what it leaves in each is `readReg_writeReg`. -/

@[simp] theorem writeReg_CNT (r : Reg) (v : Word) : (writeReg s r v).CNT = s.CNT := by cases r <;> rfl
@[simp] theorem writeReg_IDX (r : Reg) (v : Word) : (writeReg s r v).IDX = s.IDX := by cases r <;> rfl
@[simp] theorem writeReg_STATUS (r : Reg) (v : Word) : (writeReg s r v).STATUS = s.STATUS := by cases r <;> rfl
@[simp] theorem writeReg_pending (r : Reg) (v : Word) : (writeReg s r v).pending = s.pending := by cases r <;> rfl
@[simp] theorem writeReg_replies (r : Reg) (v : Word) : (writeReg s r v).replies = s.replies := by cases r <;> rfl

/-- What a register holds after a write: the written one the value, every other register with storage its own (10_state.md R22). -/
theorem readReg_writeReg (r r' : Reg) (v : Word) (hr : r ≠ .E) (hr' : r' ≠ .E) :
    readReg (writeReg s r v) r' = if r' = r then v else readReg s r' := by
  cases r <;> cases r' <;> simp_all [readReg, writeReg]

/-- A write to E is ignored (10_state.md R23). -/
@[simp] theorem writeReg_E (v : Word) : writeReg s .E v = s := rfl

/-- A write to a data register changes the data registers only. -/
theorem writeReg_eq (r : Reg) (v : Word) :
    writeReg s r v = { s with
      M := (writeReg s r v).M, O := (writeReg s r v).O, X := (writeReg s r v).X
      L := (writeReg s r v).L, F := (writeReg s r v).F, S := (writeReg s r v).S } := by
  cases r <;> rfl

/-- Writing a register's own value changes nothing (R31: `MOV r, r`). -/
@[simp] theorem writeReg_readReg (r : Reg) : writeReg s r (readReg s r) = s := by cases r <;> rfl

end Sys2Proof.Machine
end

