-- ==== Sys2Proof/Laws/Port.lean ====
section
/-! SUPPORT. What the commands do to the host's side of the port, and what one event at the port can do: one lemma for each. -/

namespace Sys2Proof.Machine

/-- Every command completes (R170: none stops the block). -/
theorem exec_completes (i : Instr) (s : State) : ∃ t, exec i s = .next t := by
  cases i <;> exact ⟨_, rfl⟩

/-- No command touches the events still pending or the answers given. -/
theorem exec_keeps_port {i : Instr} {s t : State} (h : exec i s = .next t) :
    t.pending = s.pending ∧ t.replies = s.replies := by
  cases i
  case mov dst src =>
    cases dst <;> cases h <;> exact ⟨rfl, rfl⟩
  all_goals (cases h; exact ⟨rfl, rfl⟩)

/-- What a 64-bit CMD write can do (R27, R171): the command it decodes to, or the record of an illegal command. -/
theorem issueCommand_cases (v : Word) (s : State) :
    (∃ i, decodeCmd v = .ok i ∧ issueCommand v s = exec i s) ∨
      (∃ c, decodeCmd v = .error c ∧ issueCommand v s = .next (recordIllegal s)) := by
  unfold issueCommand
  cases h : decodeCmd v with
  | ok i => exact .inl ⟨i, rfl, rfl⟩
  | error c => exact .inr ⟨c, rfl, rfl⟩

/-- A CMD write completes, and leaves the host's side of the port as it was. -/
theorem issueCommand_completes (v : Word) (s : State) :
    ∃ t, issueCommand v s = .next t ∧ t.pending = s.pending ∧ t.replies = s.replies := by
  rcases issueCommand_cases v s with ⟨i, -, h⟩ | ⟨c, -, h⟩
  · obtain ⟨t, ht⟩ := exec_completes i s
    exact ⟨t, h.trans ht, exec_keeps_port ht⟩
  · exact ⟨_, h, rfl, rfl⟩

/-- The map of R52 takes each register's offset back to it. -/
@[simp] theorem windowReg_offsetOf (w : WindowReg) : windowReg (offsetOf w) = w := by
  cases w with
  | data r => cases r <;> rfl
  | _ => rfl

/-- The registers' offsets are aligned (R53). -/
theorem accessOk_offsetOf (w : WindowReg) : accessOk 64 (offsetOf w) = true := by
  cases w with
  | data r => cases r <;> rfl
  | _ => rfl

/-- An access the port performs is 64 bits wide and aligned (R53). -/
theorem accessOk_iff (width : Nat) (off : Offset) : accessOk width off = true ↔ width = 64 ∧ off.toNat % 8 = 0 := by
  simp [accessOk]

/-- Everything one host access can do (R52 to R57): a read answers the register's value; a CMD write issues its command and is then
answered; any other write is performed and answered; a bad access is answered with the bus error. -/
theorem performAccess_cases (a : HostAccess) (s : State) :
    (∃ off, a = .read 64 off ∧ off.toNat % 8 = 0 ∧
      performAccess a s = .next (answer (.data (windowRead s (windowReg off))) s)) ∨
    (∃ off v t, a = .write 64 off v ∧ off.toNat % 8 = 0 ∧ windowReg off = .cmd ∧ issueCommand v s = .next t ∧
      performAccess a s = .next (answer .done t)) ∨
    (∃ off v, a = .write 64 off v ∧ off.toNat % 8 = 0 ∧ windowReg off ≠ .cmd ∧
      performAccess a s = .next (answer .done (windowWrite s (windowReg off) v))) ∨
    (∃ width off, (a = .read width off ∨ ∃ v, a = .write width off v) ∧ (width ≠ 64 ∨ off.toNat % 8 ≠ 0) ∧
      performAccess a s = .next (answer (.busError off) s)) := by
  cases a with
  | read width off =>
    by_cases h : accessOk width off = true
    · obtain ⟨rfl, ho⟩ := (accessOk_iff width off).1 h
      exact .inl ⟨off, rfl, ho, by simp [performAccess, h]⟩
    · refine .inr (.inr (.inr ⟨width, off, .inl rfl, ?_, by simp [performAccess, h]⟩))
      rw [accessOk_iff] at h
      tauto
  | write width off v =>
    by_cases h : accessOk width off = true
    · obtain ⟨rfl, ho⟩ := (accessOk_iff width off).1 h
      by_cases hc : windowReg off = .cmd
      · obtain ⟨t, ht, -⟩ := issueCommand_completes v s
        exact .inr (.inl ⟨off, v, t, rfl, ho, hc, ht, by simp [performAccess, h, hc, ht, answerCommand]⟩)
      · exact .inr (.inr (.inl ⟨off, v, rfl, ho, hc, by simp [performAccess, h, hc]⟩))
    · refine .inr (.inr (.inr ⟨width, off, .inr ⟨v, rfl⟩, ?_, by simp [performAccess, h]⟩))
      rw [accessOk_iff] at h
      tauto

/-- Everything a step can do: nothing when no event is pending, else the first event with the later ones pending (R60). -/
theorem step_cases (s : State) :
    (s.pending = [] ∧ step s = .next s) ∨
    (∃ rest, s.pending = .reset :: rest ∧ step s = .next (resetBlock { s with pending := rest })) ∨
    (∃ a rest, s.pending = .access a :: rest ∧ step s = performAccess a { s with pending := rest }) := by
  unfold step performNext
  cases h : s.pending with
  | nil => exact .inl ⟨rfl, rfl⟩
  | cons e rest =>
    cases e with
    | reset => exact .inr (.inl ⟨rest, rfl, rfl⟩)
    | access a => exact .inr (.inr ⟨a, rest, rfl, rfl⟩)

end Sys2Proof.Machine
end

