-- ==== Sys2Proof/Laws/Search.lean ====
section
/-! SUPPORT. What the move at depth 0 of the search contract can be. -/

namespace Sys2Proof.Machine

/-- R150, R157: the move at depth 0 is no move or a legal one. -/
theorem moveAtDepthZero_zero_or_legal (P : SearchParams) (m o : Word) :
    P.moveAtDepthZero m o = 0 ∨ legal m o (P.moveAtDepthZero m o) = true := by
  unfold SearchParams.moveAtDepthZero
  split
  · exact .inr ‹_›
  · exact .inl rfl

/-- No choice R157 allows is lost: a choice that is zero or legal is returned as it is (93_implementation_defined.md U7). -/
theorem moveAtDepthZero_of_allowed {P : SearchParams} {m o : Word}
    (h : P.depthZeroMove m o = 0 ∨ legal m o (P.depthZeroMove m o) = true) : P.moveAtDepthZero m o = P.depthZeroMove m o := by
  unfold SearchParams.moveAtDepthZero
  rcases h with h | h
  · rw [h]
    exact ite_self 0
  · exact if_pos h

end Sys2Proof.Machine
end

