-- ==== Sys2Proof/Tests/Slice0.lean ====
section
/-! SUPPORT. Tests. Every expected value is copied from spec/ (the section is named); the last part shows, for each statement with
hypotheses, a concrete state and operands that meet them. -/

namespace Sys2Proof.Tests

open Sys2Proof Sys2Proof.Machine

/-- A block holding a board and a move operand, everything else as after reset. -/
def board (m o x : Word) : State := { State.reset with M := m, O := o, X := x }

/-- The start position (40_board_masks_control.md R85). -/
def start (x : Word) : State := board 0x0000000810000000 0x0000001008000000 x

/-- The state after one command. -/
def after (i : Instr) (s : State) : State :=
  match exec i s with
  | .next t => t
  | .fault _ => s
  | .refused _ => s

/-- The state after one step. -/
def stepped (s : State) : State :=
  match step s with
  | .next t => t
  | .fault _ => s
  | .refused _ => s

/-- A state whose next event is this access. -/
def accessing (a : HostAccess) (s : State) : State := { s with pending := [.access a] }

/-- The STATUS a command word leaves at the start position with Z set (95_test_vectors.md V6). -/
def statusAfterWrite (v : Word) : Word := (stepped (accessing (cmdWrite v) { start 0 with STATUS := 0x001 })).STATUS

/-! ### WellFormed -/

theorem test_mov_to_E_is_ill_formed : (Instr.mov .E .M).wellFormed = false := by decide
theorem test_mov_from_E_is_well_formed : (Instr.mov .M .E).wellFormed = true := by decide

/-! ### Decoding, the words of 30_encoding.md R73, R74 and 95_test_vectors.md V2, V3 -/

theorem test_decode_nop : decodeWord 0b00000000000000000000000000000000 = .ok .nop := by rfl
theorem test_decode_init : decodeWord 0b00000000000000000000000000000001 = .ok .init := by rfl
theorem test_decode_swap : decodeWord 0b00000000000000000000000000000010 = .ok .swap := by rfl
theorem test_decode_mov_S_L : decodeWord 0b00000000000000000000001010110011 = .ok (.mov .S .L) := by rfl
theorem test_decode_mov_M_E : decodeWord 0x063 = .ok (.mov .M .E) := by rfl
theorem test_decode_clrst : decodeWord 0b00000000000000000000000000000100 = .ok .clrst := by rfl
theorem test_decode_popcnt_L : decodeWord 0b00000000000000000000000000110101 = .ok (.popcnt .L) := by rfl
theorem test_decode_bitidx_X : decodeWord 0b00000000000000000000000000100110 = .ok (.bitidx .X) := by rfl
theorem test_decode_scan : decodeWord 0b00000000000000000000000000000111 = .ok .scan := by rfl
theorem test_decode_gen : decodeWord 0b00000000000000000000000000001000 = .ok .gen := by rfl
theorem test_decode_chk : decodeWord 0b00000000000000000000000000001001 = .ok .chk := by rfl
theorem test_decode_class : decodeWord 0b00000000000000000000000000001010 = .ok .classify := by rfl
theorem test_decode_flip : decodeWord 0b00000000000000000000000000001011 = .ok .flip := by rfl
theorem test_decode_apply : decodeWord 0b00000000000000000000000000001100 = .ok .apply := by rfl
theorem test_encode_mov_X_S : encode (.mov .X .S) = 0x153 := by decide
theorem test_decode_table_word : decodeTableWord 32 0x2E3 = some (.mov .S .E) := by rfl

/-- V6: every cause IC1 to IC7 by name. -/
theorem test_illegal_causes :
    ([0x100000008, 0x408, 0xD, 0x73, 0x303, 0x3B3, 0x85, 0x75, 0x76, 0x10, 0x88] : List Word).map
        (fun v => match decodeCmd v with | .ok _ => none | .error c => some c) =
      [some .highHalf, some .reservedField, some .opcode, some .movSource, some .movDestination, some .movDestination,
        some .countOperand, some .countOperand, some .countOperand, some .unusedField, some .unusedField] := by decide

/-- V6: each illegal word sets IC and keeps Z. -/
theorem test_illegal_words_set_ic :
    ([0x100000008, 0x408, 0xF, 0x73, 0x303, 0x85, 0x10] : List Word).map statusAfterWrite = List.replicate 7 0x401 := by decide

/-! ### The commands (95_test_vectors.md V2 to V5) -/

theorem test_nop : (after .nop { State.reset with STATUS := 0x100 }).STATUS = 0x100 := by decide
theorem test_init : after .init (board 0xFFFFFFFFFFFFFFFF 0xFFFFFFFFFFFFFFFF 0) = start 0 := by decide
theorem test_swap : after .swap (board 0x0000000818080000 0x0000001000000000 0) =
    board 0x0000001000000000 0x0000000818080000 0 := by decide
theorem test_mov_L_E : (after (.mov .L .E) (start 0)).L = 0xFFFFFFE7E7FFFFFF := by decide
theorem test_mov_M_E : (after (.mov .M .E) (board 3 6 0)).M = 0xFFFFFFFFFFFFFFF8 := by decide
theorem test_clrst : (after .clrst { State.reset with STATUS := 0x701 }).STATUS = 0 := by decide
theorem test_popcnt_E_after_reset : (after (.popcnt .E) State.reset).CNT = 64 := by decide
theorem test_popcnt_zero : (after (.popcnt .F) State.reset).STATUS = 0x001 := by decide
theorem test_bitidx_zero : ((after (.bitidx .X) State.reset).IDX, (after (.bitidx .X) State.reset).STATUS) = (64, 0x101) := by decide
theorem test_bitidx_many : ((after (.bitidx .X) (board 0 0 6)).IDX, (after (.bitidx .X) (board 0 0 6)).STATUS) = (1, 0x100) := by decide
theorem test_scan : after .scan { State.reset with S := 0x0000102004080000 } =
    { State.reset with X := 0x0000000000080000, IDX := 19, S := 0x0000102004000000 } := by decide
theorem test_scan_last : after .scan { State.reset with S := 0x8000000000000000 } =
    { State.reset with X := 0x8000000000000000, IDX := 63 } := by decide
theorem test_gen_wrap : (after .gen (board (bit 15) (bit 16) 0)).L = 0 := by decide
theorem test_gen_overlap : ((after .gen (board 0x18000000 0x1C000000 0)).L, (after .gen (board 0x18000000 0x1C000000 0)).STATUS) =
    (0x22000000, 0x200) := by decide
theorem test_chk_legal : (after .chk (start (bit 19))).STATUS = 0x002 := by decide
theorem test_chk_two_bits : (after .chk (start 0x04080000)).STATUS = 0 := by decide
theorem test_class_pass : (after .classify (board 0x0000000000400200 0x0201200000800000 0)).STATUS = 0x005 := by decide
theorem test_class_terminal : (after .classify State.reset).STATUS = 0x009 := by decide
theorem test_flip_overlap : ((after .flip (board 0x18000000 0x1C000000 (bit 25))).F,
    (after .flip (board 0x18000000 0x1C000000 (bit 25))).STATUS) = (0, 0x203) := by decide
theorem test_flip_star : (after .flip (board 0x0000001500110015 0x000000000E0A0E00 (bit 18))).F = 0x000000000E0A0E00 := by decide
theorem test_apply_move_19 : after .apply (start (bit 19)) =
    { board 0x0000000818080000 0x0000001000000000 (bit 19) with F := 0x08000000, STATUS := 0x002 } := by decide
theorem test_apply_occupied : after .apply (board 9 6 2) = { board 0xF 2 2 with F := 4, STATUS := 0x100 } := by decide

/-! ### The host port (V6) and the step -/

theorem test_narrow_write_is_a_bus_error :
    step (accessing (.write 32 0 1) State.reset) = .next { State.reset with replies := [.busError 0] } := by rfl
theorem test_read_cnt : (stepped (accessing (.read 64 0x38) { State.reset with CNT := 4 })).replies = [.data 4] := by decide
theorem test_write_to_E_is_ignored :
    step (accessing (.write 64 0x30 5) State.reset) = .next { State.reset with replies := [.done] } := by rfl
theorem test_fetch_word_runs : (stepped (State.reset.withFetchWord 32 0x001)).M = 0x0000000810000000 := by decide
theorem test_text : commandText (.mov .S .L) = "MOV S, L" := by decide

/-! ### Witnesses: each statement's hypotheses are met -/

/-- LegalWordsAreThoseOfR72. -/
theorem witness_illegal_word : ¬∃ i, decodeCmd 0xD = .ok i := by
  rintro ⟨i, h⟩
  have : decodeCmd 0xD = .error .opcode := by rfl
  rw [this] at h
  cases h

/-- StepRunsTheIssuedCommand, and the CMD clause of RegisterMapReadsAndWrites. -/
theorem witness_issued_command : ∃ (s t : State) (v : Word) (rest : List PortEvent),
    s.pending = .access (.write 64 0x50 v) :: rest ∧ decodeCmd v = .ok .gen ∧ v.extractLsb' 32 32 = 0 ∧
      decodeWord (v.extractLsb' 0 32) = .ok .gen ∧ exec .gen { s with pending := rest } = .next t ∧ (Instr.gen).wellFormed = true :=
  ⟨accessing (cmdWrite 8) (start 0), _, 8, [], rfl, rfl, by decide, rfl, rfl, rfl⟩

/-- RegisterMapReadsAndWrites, at the map's last offset. -/
theorem witness_register_map : ∃ (s s' : State) (v : Word), s.pending = [.access (.read 64 0x78)] ∧
    s'.pending = [.access (.write 64 0x78 v)] :=
  ⟨accessing (.read 64 0x78) (start 0), accessing (.write 64 0x78 5) (start 0), 5, rfl, rfl⟩

/-- BusErrorExactlyForBadAccess: each clause, at 0x7F, at a narrow width, and at the last aligned offset. -/
theorem witness_bad_and_good_access : ∃ s s' s'' : State,
    s.pending = [.access (.read 64 0x7F)] ∧ ((0x7F : Offset).toNat % 8 ≠ 0) ∧ s'.pending = [.access (.write 63 0 1)] ∧ (63 ≠ 64) ∧
      s''.pending = [.access (.read 64 0x78)] ∧ ((0x78 : Offset).toNat % 8 = 0) :=
  ⟨accessing (.read 64 0x7F) State.reset, accessing (.write 63 0 1) State.reset, accessing (.read 64 0x78) State.reset,
    rfl, by decide, rfl, by decide, rfl, by decide⟩

/-- ReadsHaveNoSideEffect, with a bad read between. -/
theorem witness_read_twice : ∃ s : State, s.pending = .access (.read 64 0x30) ::
    ([(64, (0x7F : Offset))].map (fun p => PortEvent.access (.read p.1 p.2)) ++ .access (.read 64 0x30) :: []) :=
  ⟨{ start 0 with pending := [.access (.read 64 0x30), .access (.read 64 0x7F), .access (.read 64 0x30)] }, rfl⟩

/-- BytesOfTheWindowAreLittleEndian, at the last byte of the window. -/
theorem witness_last_byte : (0x78 : Offset).toNat % 8 = 0 ∧ 7 < 8 := by decide

/-- SerializationKeepsEachMastersOrder. -/
theorem witness_master : [HostAccess.read 64 0] ∈ [[HostAccess.read 64 0], []] := by decide

/-- IdlePortChangesNothing. -/
theorem witness_idle : State.reset.pending = [] := rfl

/-- IllegalCommandSetsIcOnly: a value for each of the seven clauses (V6). -/
theorem witness_illegal_clauses :
    (0x100000008 : Word).extractLsb' 32 32 ≠ 0 ∧ (0x408 : Word).extractLsb' 10 22 ≠ 0 ∧
    ((0xF : Word).extractLsb' 0 4).toNat ∈ [13, 14, 15] ∧
    ((0x73 : Word).extractLsb' 0 4 = 3 ∧ (0x73 : Word).extractLsb' 4 3 = 7) ∧
    ((0x303 : Word).extractLsb' 0 4 = 3 ∧ ((0x303 : Word).extractLsb' 7 3).toNat ∈ [6, 7]) ∧
    (((0x85 : Word).extractLsb' 0 4).toNat ∈ [5, 6] ∧ (0x85 : Word).extractLsb' 7 3 ≠ 0) ∧
    (((0x10 : Word).extractLsb' 0 4).toNat ∉ [3, 5, 6] ∧ (0x10 : Word).extractLsb' 4 3 ≠ 0) ∧
    (accessing (cmdWrite 0x10) State.reset).pending = [.access (.write 64 0x50 0x10)] := by decide

/-- ResetClearsEveryRegister. -/
theorem witness_reset_pending : ∃ s : State, s.M ≠ 0 ∧ s.pending = [.reset] :=
  ⟨{ start 0 with pending := [.reset] }, by decide, rfl⟩

/-- StepKeepsStateWellFormed: a well-formed state with flags set, and a step that changes them. -/
theorem witness_well_formed_step : ∃ s t : State, s.Wf ∧ step s = .next t ∧ t.STATUS ≠ s.STATUS :=
  ⟨accessing (cmdWrite 0xA) { start 0 with STATUS := 0x705, CNT := 64, IDX := 64 }, _,
    ⟨by decide, by decide, by decide, by decide⟩, rfl, by decide⟩

/-- StatusChangesOnlyByItsWriters: a changed field, and a sticky field cleared. -/
theorem witness_status_changes : ∃ s t : State, step s = .next t ∧ getFlag t.STATUS .PV ≠ getFlag s.STATUS .PV ∧
    Flag.sticky .PV = true ∧ getFlag s.STATUS .PV = true ∧ getFlag t.STATUS .PV = false :=
  ⟨accessing (cmdWrite 4) { State.reset with STATUS := 0x100 }, _, rfl, by decide, rfl, by decide, by decide⟩

/-- RegistersChangeOnlyByTheirWriters: one step that changes M, one that changes CNT, one that changes IDX. -/
theorem witness_register_changes : ∃ s s' t' s'' t'' t : State,
    step s = .next t ∧ readReg t .M ≠ readReg s .M ∧ step s' = .next t' ∧ t'.CNT ≠ s'.CNT ∧ step s'' = .next t'' ∧
      t''.IDX ≠ s''.IDX :=
  ⟨accessing (.write 64 0 7) State.reset, accessing (cmdWrite 0x65) State.reset, _, accessing (cmdWrite 7) State.reset, _, _,
    rfl, by decide, rfl, by decide, rfl, by decide⟩

/-- BoardStaysDisjoint: a legal APPLY. -/
theorem witness_board_step : ∃ s t : State, s.I1 ∧ ¬mayBreakI1 s ∧ step s = .next t ∧ t.M ≠ s.M := by
  refine ⟨accessing (cmdWrite 0xC) (start (bit 19)), _, by unfold State.I1; decide, ?_, rfl, by decide⟩
  have hd : decodeCmd 0xC = .ok .apply := rfl
  have hnext : ∀ d, commandIsNext (accessing (cmdWrite 0xC) (start (bit 19))) d → d = .ok .apply := by
    rintro d ⟨v, rest, h, rfl⟩
    cases h
    exact hd
  rintro (⟨v, rest, h⟩ | ⟨v, rest, h⟩ | ⟨src, h | h⟩ | ⟨-, h⟩)
  · exact absurd h (by simp [accessing, cmdWrite, offsetOf])
  · exact absurd h (by simp [accessing, cmdWrite, offsetOf])
  · exact absurd (hnext _ h) (by simp)
  · exact absurd (hnext _ h) (by simp)
  · exact absurd h (by decide)

/-- BoardCommandsIgnoreStaleResults. -/
theorem witness_board_command : Instr.apply ∈ [Instr.chk, .classify, .flip, .apply] := by decide

/-- NopChangesNothing, MovCopiesOneRegister, ClrstClearsStatus: words of the opcode that are illegal. -/
theorem witness_illegal_words_of_an_opcode :
    ((0x10 : CmdWord).extractLsb' 0 4 = 0 ∧ (0x10 : CmdWord) ≠ 0) ∧
    ((0x73 : CmdWord).extractLsb' 0 4 = 3 ∧ (0x73 : CmdWord).extractLsb' 4 3 = 7) ∧
    ((0x303 : CmdWord).extractLsb' 0 4 = 3 ∧ (0x303 : CmdWord).extractLsb' 7 3 = 6) ∧
    ((0x3B3 : CmdWord).extractLsb' 0 4 = 3 ∧ (0x3B3 : CmdWord).extractLsb' 7 3 = 7) ∧
    ((0x14 : CmdWord).extractLsb' 0 4 = 4 ∧ (0x14 : CmdWord) ≠ 4) := by decide

/-- BitidxFindsTheLowestBit, ScanTakesTheLowestBit, ScansEnumerateInIndexOrder: an empty operand, a single bit at the top, several. -/
theorem witness_scan_operands : readReg State.reset .X = 0 ∧ readReg (board 0 0 (bit 63)) .X = bit 63 ∧
    readReg (board 0 0 6) .X ≠ 0 ∧ State.reset.S = 0 ∧ 1 < (cells 6).length := by decide

/-- GenDatapathMeetsTheDefinition, FlipSetIsTheCapturedCells, FlipSetLaws: the numeric hypotheses at their bounds. -/
theorem witness_flip_laws : (5 ≤ 5) ∧ (7 ≤ 7) ∧ popcount 3 ≠ 1 ∧ startMover &&& startOther = 0 ∧ 63 < 64 ∧
    (empty startMover startOther).getLsbD 63 = true := by decide

/-- LegalApplyConservesTheBoard. -/
theorem witness_legal_apply : (start (bit 19)).I1 ∧ legal (start (bit 19)).M (start (bit 19)).O (start (bit 19)).X = true := by
  unfold State.I1
  decide

/-- A host whose evaluation is even and whose terminal score is 1, 0 or −1. -/
def plainHost : SearchParams where
  eval := fun _ _ => 0
  terminal := fun m o => (discDifference m o).sign
  negInf := -2
  depthZeroMove := fun _ _ => 0
  passWindow := fun alpha beta => (-beta, -alpha)

/-- R150, R157: at depth 0 a legal choice of the host is returned (cell 19, W1), a multi-bit or unlisted one is not. -/
theorem test_search_depth_zero :
    (negamax { plainHost with depthZeroMove := fun _ _ => bit 19 } startMover startOther 0 0 0).move = bit 19 ∧
    (negamax { plainHost with depthZeroMove := fun _ _ => 0x04080000 } startMover startOther (-1) 0 0).move = 0 ∧
    (negamax { plainHost with depthZeroMove := fun _ _ => bit 20 } startMover startOther 0 0 0).move = 0 := by decide

/-- EveryAccessIsAnsweredInOrder: a read and a reset pending, at the last `k`. -/
theorem witness_all_pending : ∃ s : State, s.pending = [.access (.read 64 0), .reset] ∧ 2 ≤ s.pending.length :=
  ⟨{ start 0 with pending := [.access (.read 64 0), .reset] }, rfl, by decide⟩

/-- SearchReturnsALegalMove, SearchLeavesFollowTheContract: host choices that meet the contract, and a position for each case. -/
theorem witness_search : plainHost.Meets 1 ∧ getMoves startMover startOther ≠ 0 ∧ (0 : Int) < 4 ∧
    (getMoves 0 0 = 0 ∧ getMoves 0x0000000000400200 0x0201200000800000 = 0 ∧
      getMoves 0x0201200000800000 0x0000000000400200 ≠ 0) ∧ (-1 : Int) < 0 := by
  refine ⟨⟨fun _ _ => rfl, fun m o => by simp [plainHost], fun _ _ => by simp [plainHost], fun m o => ?_, by decide⟩,
    by decide, by decide, by decide, by decide⟩
  rcases lt_trichotomy (discDifference m o) 0 with h | h | h
  · simp [plainHost, Int.sign_eq_neg_one_of_neg h]
  · simp [plainHost, h]
  · simp [plainHost, Int.sign_eq_one_of_pos h]

end Sys2Proof.Tests
end

section
/-! PROOFS. What the decoder answers, and that it takes a command's word back to the command (30_encoding.md R70 to R73). -/

namespace Sys2Proof.Machine

/-! ### The decoder answers well-formed commands only -/

theorem decodePlain_eq_ok {w : CmdWord} {i j : Instr} (h : decodePlain w i = .ok j) : j = i := by
  unfold decodePlain at h
  split at h
  · exact (Except.ok.inj h).symm
  · cases h

theorem decodeCount_eq_ok {w : CmdWord} {make : Reg → Instr} {j : Instr} (h : decodeCount w make = .ok j) :
    ∃ src, j = make src := by
  unfold decodeCount at h
  split at h
  · cases h
  · split at h
    · exact ⟨_, (Except.ok.inj h).symm⟩
    · cases h

theorem decodeMov_eq_ok {w : CmdWord} {j : Instr} (h : decodeMov w = .ok j) :
    ∃ dst src, dst.writable = true ∧ j = .mov dst src := by
  unfold decodeMov at h
  split at h
  · cases h
  · split at h
    · cases h
    · split at h
      · exact ⟨_, _, ‹_›, (Except.ok.inj h).symm⟩
      · cases h

/-- A legal word names a command of BMG-1 (R72); in particular never a MOV into E. -/
theorem wellFormed_of_decodeWord {w : CmdWord} {i : Instr} (h : decodeWord w = .ok i) : i.wellFormed = true := by
  unfold decodeWord at h
  split at h
  case isFalse => cases h
  case isTrue =>
    split at h
    case h_4 =>
      obtain ⟨dst, src, hdst, rfl⟩ := decodeMov_eq_ok h
      exact hdst
    case h_6 | h_7 =>
      obtain ⟨src, rfl⟩ := decodeCount_eq_ok h
      rfl
    case h_14 => cases h
    all_goals
      obtain rfl := decodePlain_eq_ok h
      rfl

theorem wellFormed_of_decodeCmd {v : Word} {i : Instr} (h : decodeCmd v = .ok i) : i.wellFormed = true := by
  unfold decodeCmd at h
  split at h
  · exact wellFormed_of_decodeWord h
  · cases h

/-! ### The decoder inverts the encoder -/

/-- The fields of a command's word, for every command. -/
theorem fieldsOfEncoding (i : Instr) : Laws.FieldsOfEncoding.Statement i := by
  cases i with
  | nop => exact Laws.FieldsOfEncoding.nop
  | init => exact Laws.FieldsOfEncoding.init
  | swap => exact Laws.FieldsOfEncoding.swap
  | mov dst src => exact Laws.FieldsOfEncoding.mov dst src
  | clrst => exact Laws.FieldsOfEncoding.clrst
  | popcnt src => exact Laws.FieldsOfEncoding.popcnt src
  | bitidx src => exact Laws.FieldsOfEncoding.bitidx src
  | scan => exact Laws.FieldsOfEncoding.scan
  | gen => exact Laws.FieldsOfEncoding.gen
  | chk => exact Laws.FieldsOfEncoding.chk
  | classify => exact Laws.FieldsOfEncoding.classify
  | flip => exact Laws.FieldsOfEncoding.flip
  | apply => exact Laws.FieldsOfEncoding.apply

/-- A register's select code names the register (R71). -/
@[simp] theorem regOfCode_code (r : Reg) : regOfCode r.code = some r := by cases r <;> rfl

theorem decodePlain_eq {w : CmdWord} (hsrc : srcField w = 0) (hdst : dstField w = 0) (i : Instr) :
    decodePlain w i = .ok i := by simp [decodePlain, hsrc, hdst]

theorem decodeCount_eq {w : CmdWord} {src : Reg} (hsrc : srcField w = src.code) (hdst : dstField w = 0)
    (make : Reg → Instr) : decodeCount w make = .ok (make src) := by simp [decodeCount, hsrc, hdst]

theorem decodeMov_eq {w : CmdWord} {dst src : Reg} (hsrc : srcField w = src.code) (hdst : dstField w = dst.code)
    (hw : dst.writable = true) : decodeMov w = .ok (.mov dst src) := by simp [decodeMov, hsrc, hdst, hw]

/-- The word of a well-formed command decodes to it (R70, R73). -/
theorem decodeWord_encode {i : Instr} (hi : i.wellFormed = true) : decodeWord (encode i) = .ok i := by
  obtain ⟨hop, -, hrsv, hfields⟩ := fieldsOfEncoding i
  obtain ⟨hsrc, hdst⟩ := Prod.mk.inj hfields
  unfold decodeWord
  rw [if_pos hrsv, hop]
  cases i with
  | mov dst src => exact decodeMov_eq hsrc hdst hi
  | popcnt src => exact decodeCount_eq hsrc hdst .popcnt
  | bitidx src => exact decodeCount_eq hsrc hdst .bitidx
  | _ => exact decodePlain_eq hsrc hdst _

/-- Thirty-two table bits are a CMD write of the word zero-extended (R70, R75). -/
theorem tableWrite_toNat (w : CmdWord) : tableWrite 32 w.toNat = w.setWidth 64 := by
  rw [tableWrite, Nat.mod_eq_of_lt w.isLt, BitVec.ofNat_toNat]

/-- A word zero-extended to a CMD write value means what the word means (R27). -/
theorem decodeCmd_setWidth (w : CmdWord) : decodeCmd (w.setWidth 64) = decodeWord w := by
  have hhigh : highHalf (w.setWidth 64) = 0 := by
    apply BitVec.eq_of_getLsbD_eq
    intro i hi
    simp [highHalf]
  have hlow : lowHalf (w.setWidth 64) = w := by
    apply BitVec.eq_of_getLsbD_eq
    intro i hi
    have hi64 : i < 64 := by omega
    simp [lowHalf, hi, hi64]
  rw [decodeCmd, if_pos hhigh, hlow]

end Sys2Proof.Machine
end

section
/-! PROOFS. What one step can do to the block, said once in the words of the statements (10_state.md R32, 20_memory.md R60). -/

namespace Sys2Proof.Machine

/-- The ways a step changes the block. The first says that the registers stay; each of the others names the event that the
statements about writers (R21, R24, R25) allow for. -/
inductive StepEffect (s : State) : State → Prop
  /-- no event, a read, a write to a read-only or reserved offset, or a bus error -/
  | quiet (p : List PortEvent) (a : List Reply) : StepEffect s { s with pending := p, replies := a }
  /-- the reset input -/
  | reset (p : List PortEvent) (h : resetIsNext s) : StepEffect s (resetBlock { s with pending := p })
  /-- a host write to a data register with storage -/
  | hostWrite (r : Reg) (v : Word) (p : List PortEvent) (hr : r ≠ .E) (h : writeIsNext s (offsetOf (.data r))) :
      StepEffect s (answer .done (writeReg { s with pending := p } r v))
  /-- a CMD write of a legal command -/
  | command (i : Instr) (p : List PortEvent) (u : State) (h : commandIsNext s (.ok i)) (hi : i.wellFormed = true)
      (hu : exec i { s with pending := p } = .next u) : StepEffect s (answer .done u)
  /-- a CMD write of an illegal value -/
  | illegal (c : IllegalCause) (p : List PortEvent) (h : commandIsNext s (.error c)) :
      StepEffect s (answer .done (recordIllegal { s with pending := p }))

/-- An aligned offset is the named offset of what stands there, unless that is reserved (R52, R55). -/
theorem offsetOf_windowReg {off : Offset} (ha : off.toNat % 8 = 0) (hr : windowReg off ≠ .reserved) :
    offsetOf (windowReg off) = off := by
  have key : ∀ o : Offset, o.toNat % 8 = 0 → windowReg o ≠ .reserved → offsetOf (windowReg o) = o := by decide
  exact key off ha hr

/-- What a host write to another offset than CMD's does to the block: the data register there takes it, every other is as it was. -/
theorem hostWrite_effect {s : State} {off : Offset} {v : Word} {rest : List PortEvent}
    (hp : s.pending = .access (.write 64 off v) :: rest) (ha : off.toNat % 8 = 0) :
    StepEffect s (answer .done (windowWrite { s with pending := rest } (windowReg off) v)) := by
  have hoff := offsetOf_windowReg ha
  cases hw : windowReg off with
  | data r =>
    by_cases hr : r = .E
    · subst hr
      exact .quiet rest _
    · refine .hostWrite r v rest hr ⟨v, rest, ?_⟩
      rw [hp, ← hw, hoff (by simp [hw])]
  | _ => exact .quiet rest _

/-- What a CMD write does to the block: the effect of the command its value decodes to, or the record of an illegal command. -/
theorem cmdWrite_effect {s t : State} {v : Word} {rest : List PortEvent}
    (hp : s.pending = .access (cmdWrite v) :: rest) (ht : issueCommand v { s with pending := rest } = .next t) :
    StepEffect s (answer .done t) := by
  obtain ⟨i, hi, he⟩ | ⟨c, hc, he⟩ := issueCommand_cases v { s with pending := rest }
  · exact .command i rest t ⟨v, rest, hp, hi⟩ (wellFormed_of_decodeCmd hi) (he.symm.trans ht)
  · obtain rfl := Host.Outcome.next.inj (he.symm.trans ht)
    exact .illegal c rest ⟨v, rest, hp, hc⟩

/-- Every step has one of the effects above. -/
theorem step_effect {s t : State} (h : step s = .next t) : StepEffect s t := by
  obtain ⟨-, he⟩ | ⟨rest, hp, he⟩ | ⟨a, rest, hp, he⟩ := step_cases s
  · obtain rfl := Host.Outcome.next.inj (he.symm.trans h)
    exact .quiet s.pending s.replies
  · obtain rfl := Host.Outcome.next.inj (he.symm.trans h)
    exact .reset rest ⟨rest, hp⟩
  · have hperf := he.symm.trans h
    obtain ⟨off, -, -, hr⟩ | ⟨off, v, u, rfl, ha, hcmd, hu, hr⟩ | ⟨off, v, rfl, ha, -, hr⟩ | ⟨width, off, -, -, hr⟩ :=
      performAccess_cases a { s with pending := rest }
    all_goals obtain rfl := Host.Outcome.next.inj (hr.symm.trans hperf)
    · exact .quiet rest _
    · have hoff : offsetOf .cmd = off := hcmd ▸ offsetOf_windowReg ha (by simp [hcmd])
      exact cmdWrite_effect (by rw [cmdWrite, hoff]; exact hp) hu
    · exact hostWrite_effect hp ha
    · exact .quiet rest _

end Sys2Proof.Machine
end

section
/-! PROOFS. What one command can do to each part of the state (10_state.md R21, R24 to R26; 42_move_generation.md R117). -/

namespace Sys2Proof.Machine

variable {i : Instr} {s t : State}

/-- A command writes a data register only if R21 lists it for that register. -/
theorem exec_readReg {r : Reg} (h : exec i s = .next t) (hr : r ≠ .E) (hw : writtenByCommand r i = false) :
    readReg t r = readReg s r := by
  cases i with
  | mov dst src =>
    have hne : r ≠ dst := by
      rintro rfl
      cases r <;> simp [writtenByCommand] at hw
    cases h
    split
    · have hdst : dst ≠ .E := by
        rintro rfl
        contradiction
      rw [readReg_writeReg s dst r _ hdst hr, if_neg hne]
    · cases r <;> rfl
  | _ => cases h; cases r <;> simp [writtenByCommand, readReg] at hr hw ⊢

/-- CNT after a command: a population count when it was POPCNT, else what it was (R24). -/
theorem exec_CNT (h : exec i s = .next t) :
    t.CNT = s.CNT ∨ ∃ src, i = .popcnt src ∧ t.CNT = toNarrow (popcount (readReg s src)) := by
  cases i with
  | popcnt src => cases h; exact .inr ⟨src, rfl, rfl⟩
  | mov dst src => cases h; left; split <;> simp
  | _ => cases h; simp

/-- IDX after a command: a bit index when it was SCAN or BITIDX, else what it was (R24). -/
theorem exec_IDX (h : exec i s = .next t) :
    t.IDX = s.IDX ∨ (i = .scan ∨ ∃ src, i = .bitidx src) ∧ ∃ v, t.IDX = toNarrow (ctz v) := by
  cases i with
  | scan => cases h; exact .inr ⟨.inl rfl, s.S, rfl⟩
  | bitidx src => cases h; exact .inr ⟨.inr ⟨src, rfl⟩, readReg s src, rfl⟩
  | mov dst src => cases h; left; split <;> simp
  | _ => cases h; simp

/-- A command leaves the reserved bits of STATUS 0 (R26). -/
theorem exec_reserved (h : exec i s = .next t) (hs : s.STATUS &&& ~~~statusFields = 0) :
    t.STATUS &&& ~~~statusFields = 0 := by
  cases i with
  | nop | init | swap => cases h; exact hs
  | mov dst src =>
    cases h
    split
    · simpa using hs
    · simpa using putFlag_reserved hs .IC true
  | clrst => cases h; exact BitVec.zero_and
  | popcnt _ | scan => cases h; exact putFlag_reserved hs _ _
  | bitidx _ | gen | chk => cases h; exact setFlagIf_reserved (putFlag_reserved hs _ _) _ _
  | classify =>
    cases h
    exact setFlagIf_reserved (putFlag_reserved (putFlag_reserved (putFlag_reserved hs _ _) _ _) _ _) _ _
  | flip | apply =>
    cases h
    exact setFlagIf_reserved (setFlagIf_reserved (putFlag_reserved (putFlag_reserved hs _ _) _ _) _ _) _ _

/-- A legal command other than CLRST writes a field of STATUS only if R25 lists it for the field, and clears no sticky
field (R26). -/
theorem exec_flag (h : exec i s = .next t) (hi : i.wellFormed = true) (hc : i ≠ .clrst) (f : Flag) :
    (f.writtenBy i = false → getFlag t.STATUS f = getFlag s.STATUS f) ∧
      (f.sticky = true → getFlag s.STATUS f = true → getFlag t.STATUS f = true) := by
  cases i with
  | clrst => contradiction
  | nop | init | swap => cases h; exact ⟨fun _ => rfl, fun _ => id⟩
  | mov dst src =>
    cases h
    have hdst : dst.writable = true := hi
    simp [hdst]
  | _ => cases h; cases f <;> simp +contextual [Flag.writtenBy, Flag.sticky]

/-- A command leaves PS and TM exclusive: CLASS sets at most one of them, CLRST clears both, no other command writes them (R117). -/
theorem exec_PS_TM (h : exec i s = .next t) (hs : ¬(getFlag s.STATUS .PS = true ∧ getFlag s.STATUS .TM = true)) :
    ¬(getFlag t.STATUS .PS = true ∧ getFlag t.STATUS .TM = true) := by
  cases i with
  | classify =>
    cases h
    have exclusive : ∀ a b : Bool, ¬((a && !b) = true ∧ (a && b) = true) := by decide
    simpa [bne] using exclusive (getMoves s.M s.O == 0) (getMoves s.O s.M == 0)
  | clrst => cases h; simp [getFlag]
  | mov dst src => cases h; split <;> simpa using hs
  | _ => cases h; simpa using hs

end Sys2Proof.Machine
end

section
/-! PROOFS. The statements about what every step keeps, and which event changes what. -/

namespace Sys2Proof.Machine

/-- Setting IC leaves a state well-formed. -/
theorem recordIllegal_wf {s : State} (hs : s.Wf) : (recordIllegal s).Wf := by
  obtain ⟨hcnt, hidx, hres, hpt⟩ := hs
  exact ⟨hcnt, hidx, by simpa using putFlag_reserved hres .IC true, by simpa using hpt⟩

/-- Every command leaves a state well-formed. -/
theorem exec_wf {i : Instr} {s t : State} (h : exec i s = .next t) (hs : s.Wf) : t.Wf := by
  obtain ⟨hcnt, hidx, hres, hpt⟩ := hs
  refine ⟨?_, ?_, exec_reserved h hres, exec_PS_TM h hpt⟩
  · obtain he | ⟨src, -, he⟩ := exec_CNT h
    · rwa [he]
    · rw [he, toNarrow_toNat (popcount_le _)]
      exact popcount_le _
  · obtain he | ⟨-, v, he⟩ := exec_IDX h
    · rwa [he]
    · rw [he, toNarrow_toNat (ctz_le v)]
      exact ctz_le v

/-- Settles O18: every register is 0. -/
theorem resetStateIsWellFormed : Obligations.ResetStateIsWellFormed := by
  unfold Obligations.ResetStateIsWellFormed State.Wf
  decide

/-- Settles O19, by the effect of the step; of these only a command computes CNT, IDX, PS or TM, and `exec_wf` is about it. -/
theorem stepKeepsStateWellFormed : Obligations.StepKeepsStateWellFormed := by
  intro s t hs h
  cases step_effect h with
  | quiet p a => exact hs
  | reset p => exact resetStateIsWellFormed
  | hostWrite r v p => simpa [State.Wf] using hs
  | command i p u _ _ hu =>
    have hu' : u.Wf := exec_wf hu hs
    exact hu'
  | illegal c p =>
    have hi : (recordIllegal { s with pending := p }).Wf := recordIllegal_wf hs
    exact hi

/-- What a step does to a field of STATUS: nothing, or its event is a reset or CLRST, or a command that writes the field or (IC) an
illegal one, which clears no sticky field. -/
theorem step_flag {s t : State} (h : step s = .next t) (f : Flag) :
    getFlag t.STATUS f = getFlag s.STATUS f ∨ resetIsNext s ∨ commandIsNext s (.ok .clrst) ∨
      ((∃ i, commandIsNext s (.ok i) ∧ f.writtenBy i = true) ∨ (f = .IC ∧ ∃ c, commandIsNext s (.error c))) ∧
        (f.sticky = true → getFlag s.STATUS f = true → getFlag t.STATUS f = true) := by
  cases step_effect h with
  | quiet p a => exact .inl rfl
  | reset p hn => exact .inr (.inl hn)
  | hostWrite r v p => simp
  | command i p u hn hi hu =>
    by_cases hc : i = .clrst
    · subst hc
      exact .inr (.inr (.inl hn))
    · obtain ⟨hkeep, hsticky⟩ := exec_flag hu hi hc f
      cases hw : f.writtenBy i with
      | false => exact .inl (hkeep hw)
      | true => exact .inr (.inr (.inr ⟨.inl ⟨i, hn, hw⟩, hsticky⟩))
  | illegal c p hn =>
    by_cases hf : f = .IC
    · exact .inr (.inr (.inr ⟨.inr ⟨hf, c, hn⟩, by simp [hf]⟩))
    · simp [hf]

/-- Settles O20, from what a step does to one field. -/
theorem statusChangesOnlyByItsWriters : Obligations.StatusChangesOnlyByItsWriters := by
  intro s t f h
  obtain hkeep | hreset | hclrst | ⟨hwriter, hsticky⟩ := step_flag h f
  · exact ⟨fun hne => absurd hkeep hne, fun _ h1 h0 => by simp [hkeep, h1] at h0⟩
  · exact ⟨fun _ => .inl hreset, fun _ _ _ => .inl hreset⟩
  · exact ⟨fun _ => .inr (.inl hclrst), fun _ _ _ => .inr hclrst⟩
  · exact ⟨fun _ => .inr (.inr hwriter), fun hf h1 h0 => by simp [hsticky hf h1] at h0⟩

/-- The host's side of the port shows in no register. -/
theorem readReg_port (s : State) (p : List PortEvent) (a : List Reply) (r : Reg) :
    readReg { s with pending := p, replies := a } r = readReg s r := by cases r <;> rfl

/-- The record of an illegal command changes no register (R171). -/
theorem readReg_recordIllegal (s : State) (r : Reg) : readReg (recordIllegal s) r = readReg s r := by cases r <;> rfl

/-- An answer to an access shows in no register. -/
theorem readReg_answer (s : State) (a : Reply) (r : Reg) : readReg (answer a s) r = readReg s r :=
  readReg_port s s.pending _ r

/-- Settles O21: each effect of a step leaves a register as it was or is one of its writers. -/
theorem registersChangeOnlyByTheirWriters : Obligations.RegistersChangeOnlyByTheirWriters := by
  intro s t h
  cases step_effect h with
  | quiet p a => exact ⟨fun r _ hne => absurd (readReg_port s p a r) hne, by simp, by simp⟩
  | reset p hr => exact ⟨fun _ _ _ => .inl hr, fun _ => .inl hr, fun _ => .inl hr⟩
  | hostWrite r v p hr hn =>
    refine ⟨fun r' hr' hne => ?_, by simp, by simp⟩
    obtain rfl : r' = r := by
      by_contra hrr
      rw [readReg_answer, readReg_writeReg _ _ _ _ hr hr', if_neg hrr] at hne
      exact hne (readReg_port s p s.replies r')
    exact .inr (.inl hn)
  | command i p u hn _ hu =>
    refine ⟨fun r hr hne => .inr (.inr ⟨i, hn, ?_⟩), fun hne => ?_, fun hne => ?_⟩
    · by_contra hw
      rw [readReg_answer, exec_readReg hu hr (by simpa using hw)] at hne
      exact hne (readReg_port s p s.replies r)
    · obtain he | ⟨src, rfl, -⟩ := exec_CNT hu
      · exact absurd he hne
      · exact .inr ⟨src, hn⟩
    · obtain he | ⟨rfl | ⟨src, rfl⟩, -⟩ := exec_IDX hu
      · exact absurd he hne
      · exact .inr (.inl hn)
      · exact .inr (.inr ⟨src, hn⟩)
  | illegal c p =>
    refine ⟨fun r _ hne => ?_, by simp, by simp⟩
    rw [readReg_answer, readReg_recordIllegal] at hne
    exact absurd (readReg_port s p s.replies r) hne

/-- A step whose next event is a write to CMD issues the command and answers the write (R27, R60). -/
theorem step_cmdWrite {s : State} {v : Word} {rest : List PortEvent} (hp : s.pending = .access (cmdWrite v) :: rest) :
    step s = answerCommand (issueCommand v { s with pending := rest }) := by
  simp only [step, performNext, hp]
  rfl

theorem issueCommand_of_decodeCmd {v : Word} {i : Instr} (h : decodeCmd v = .ok i) (s : State) :
    issueCommand v s = exec i s := by simp [issueCommand, h]

/-- A step whose next event is a CMD write of a legal command runs the command and answers the write (R27). -/
theorem step_legal_cmdWrite {s : State} {v : Word} {rest : List PortEvent} {i : Instr}
    (hp : s.pending = .access (cmdWrite v) :: rest) (hd : decodeCmd v = .ok i) :
    step s = answerCommand (exec i { s with pending := rest }) := by
  rw [step_cmdWrite hp, issueCommand_of_decodeCmd hd]

/-- Settles O5, by `step_legal_cmdWrite`; the word `withFetchWord` places decodes to the command by `decodeWord_encode`. -/
theorem stepRunsTheIssuedCommand : Obligations.StepRunsTheIssuedCommand := by
  constructor
  · intro s v rest i hp hd
    obtain ⟨t, ht⟩ := exec_completes i { s with pending := rest }
    rw [step_legal_cmdWrite hp hd, ht]
    rfl
  · intro s i hi
    have hd : decodeCmd (tableWrite 32 (encode i).toNat) = .ok i := by
      rw [tableWrite_toNat, decodeCmd_setWidth, decodeWord_encode hi]
    obtain ⟨t, ht⟩ := exec_completes i s
    rw [step_legal_cmdWrite (withFetchWord_pending s _ _) hd, ht]
    exact congrArg answerCommand ht

/-- A step whose next event is the reset input clears the block (R190). -/
theorem step_reset {s : State} {rest : List PortEvent} (hp : s.pending = .reset :: rest) :
    step s = .next (resetBlock { s with pending := rest }) := by
  simp only [step, performNext, hp]
  rfl

/-- E reads all ones when M and O are 0 (R23, R34). -/
theorem windowRead_E_of_zero {s : State} (hm : s.M = 0) (ho : s.O = 0) :
    windowRead s (windowReg 0x30) = 0xFFFFFFFFFFFFFFFF := by
  have hE : windowRead s (windowReg 0x30) = ~~~(s.M ||| s.O) := rfl
  rw [hE, hm, ho]
  rfl

/-- Settles O17: the cleared block, register by register. -/
theorem resetClearsEveryRegister : Obligations.ResetClearsEveryRegister := by
  refine ⟨fun s rest hp => ⟨_, step_reset hp, ?_⟩, ?_⟩
  · exact ⟨rfl, rfl, rfl, rfl, rfl, rfl, rfl, rfl, rfl, windowRead_E_of_zero rfl rfl, rfl⟩
  · exact ⟨rfl, rfl, rfl, rfl, rfl, rfl, rfl, rfl, rfl, windowRead_E_of_zero rfl rfl⟩

end Sys2Proof.Machine
end

section
/-! PROOFS. One rule for each event at the port: what a step does whose next event is a read, a write or a bad access
(20_memory.md R52, R53, R56). -/

namespace Sys2Proof.Machine

variable {s : State} {rest : List PortEvent}

/-- A step whose next event is an access performs it, with the later events pending (R60). -/
theorem step_access {a : HostAccess} (hp : s.pending = .access a :: rest) :
    step s = performAccess a { s with pending := rest } := by
  simp only [step, performNext, hp]
  rfl

/-- The host's side of the port shows in no window register. -/
theorem windowRead_port (s : State) (p : List PortEvent) (a : List Reply) (w : WindowReg) :
    windowRead { s with pending := p, replies := a } w = windowRead s w := by
  cases w with
  | data r => exact readReg_port s p a r
  | _ => rfl

/-- The answer a read gets: the register's value, or the bus error of a read that is not performed (R52, R56). -/
def readReply (s : State) (width : Nat) (off : Offset) : Reply :=
  if accessOk width off then .data (windowRead s (windowReg off)) else .busError off

/-- The answer to a read does not depend on the host's side of the port. -/
theorem readReply_port (s : State) (p : List PortEvent) (a : List Reply) (width : Nat) (off : Offset) :
    readReply { s with pending := p, replies := a } width off = readReply s width off := by
  unfold readReply
  rw [windowRead_port]

/-- A read, good or bad, does nothing but answer (R56, R57). -/
theorem performAccess_read (s : State) (width : Nat) (off : Offset) :
    performAccess (.read width off) s = .next (answer (readReply s width off) s) := by
  simp only [performAccess, readReply]
  split <;> rfl

/-- A step whose next event is a read, good or bad, answers it and does nothing else. -/
theorem step_read {width : Nat} {off : Offset} (hp : s.pending = .access (.read width off) :: rest) :
    step s = .next { s with pending := rest, replies := s.replies ++ [readReply s width off] } := by
  have hr : readReply { s with pending := rest } width off = readReply s width off := readReply_port s rest s.replies width off
  rw [step_access hp, performAccess_read, hr]
  rfl

/-! The three ways a write completes (R52, R53, R56). -/

theorem performAccess_write_of_not_ok {width : Nat} {off : Offset} (hok : ¬accessOk width off = true) (v : Word) (s : State) :
    performAccess (.write width off v) s = .next (answer (.busError off) s) := by rw [performAccess, if_neg hok]

theorem performAccess_write_of_cmd {width : Nat} {off : Offset} (hok : accessOk width off = true) (hc : windowReg off = .cmd)
    (v : Word) (s : State) : performAccess (.write width off v) s = answerCommand (issueCommand v s) := by
  rw [performAccess, if_pos hok, if_pos hc]

theorem performAccess_write_of_ne_cmd {width : Nat} {off : Offset} (hok : accessOk width off = true) (hc : windowReg off ≠ .cmd)
    (v : Word) (s : State) :
    performAccess (.write width off v) s = .next (answer .done (windowWrite s (windowReg off) v)) := by
  rw [performAccess, if_pos hok, if_neg hc]

/-- What a write to a register does, it does whatever is pending. -/
theorem windowWrite_with_pending (s : State) (p : List PortEvent) (w : WindowReg) (v : Word) :
    windowWrite { s with pending := p } w v = { windowWrite s w v with pending := p } := by
  cases w with
  | data r => cases r <;> rfl
  | _ => rfl

@[simp] theorem windowWrite_pending (s : State) (w : WindowReg) (v : Word) : (windowWrite s w v).pending = s.pending := by
  cases w with
  | data r => exact writeReg_pending s r v
  | _ => rfl

@[simp] theorem windowWrite_replies (s : State) (w : WindowReg) (v : Word) : (windowWrite s w v).replies = s.replies := by
  cases w with
  | data r => exact writeReg_replies s r v
  | _ => rfl

/-- A 64-bit write at an aligned offset other than CMD's is performed and answered (R52). -/
theorem step_windowWrite {off : Offset} {v : Word} (hp : s.pending = .access (.write 64 off v) :: rest)
    (ha : off.toNat % 8 = 0) (hc : windowReg off ≠ .cmd) :
    step s = .next { windowWrite s (windowReg off) v with pending := rest, replies := s.replies ++ [.done] } := by
  have hok : accessOk 64 off = true := (accessOk_iff 64 off).2 ⟨rfl, ha⟩
  rw [step_access hp, performAccess_write_of_ne_cmd hok hc, windowWrite_with_pending, answer, windowWrite_replies]

/-- An access of another width than 64 bits, or at an offset that is no multiple of 8, is answered with the bus error and does
nothing else (R53, R56). -/
theorem step_badAccess {width : Nat} {off : Offset} {v : Word}
    (hp : s.pending = .access (.read width off) :: rest ∨ s.pending = .access (.write width off v) :: rest)
    (hbad : width ≠ 64 ∨ off.toNat % 8 ≠ 0) :
    step s = .next { s with pending := rest, replies := s.replies ++ [.busError off] } := by
  have hok : ¬accessOk width off = true := by
    rw [accessOk_iff]
    tauto
  obtain hp | hp := hp
  · rw [step_read hp, readReply, if_neg hok]
  · rw [step_access hp, performAccess_write_of_not_ok hok]
    rfl

/-- Every access completes with one answer, of the kind it gets, and leaves the later events pending (R56, R60). -/
theorem performAccess_answers (a : HostAccess) (s : State) :
    ∃ t r, performAccess a s = .next t ∧ t.pending = s.pending ∧ t.replies = s.replies ++ [r] ∧ AnsweredBy a r := by
  obtain ⟨off, rfl, ha, h⟩ | ⟨off, v, u, rfl, ha, -, hu, h⟩ | ⟨off, v, rfl, ha, -, h⟩ | ⟨width, off, hw, hbad, h⟩ :=
    performAccess_cases a s
  · exact ⟨_, _, h, rfl, rfl, by simp [AnsweredBy, ha]⟩
  · obtain ⟨u', hu', hpend, hrep⟩ := issueCommand_completes v s
    obtain rfl := Host.Outcome.next.inj (hu.symm.trans hu')
    exact ⟨_, .done, h, hpend, by simp [hrep], by simp [AnsweredBy, ha]⟩
  · exact ⟨_, .done, h, by simp, by simp, by simp [AnsweredBy, ha]⟩
  · have hno : ¬(width = 64 ∧ off.toNat % 8 = 0) := by tauto
    refine ⟨_, _, h, rfl, rfl, ?_⟩
    obtain rfl | ⟨v, rfl⟩ := hw <;> simp [AnsweredBy, hno]

end Sys2Proof.Machine
end

section
/-! PROOFS. The statements about the port's order: repeated reads, one event at a time, one answer for each access
(20_memory.md R57, R60). -/

namespace Sys2Proof.Machine

/-- `k + 1` steps are one step and `k` more. -/
theorem run_succ {s t : State} (h : step s = .next t) (k : Nat) :
    Host.Core.run Sys2Proof.core (k + 1) s = Host.Core.run Sys2Proof.core k t := by
  have hcore : Sys2Proof.core.step s = .next t := h
  simp only [Host.Core.run, hcore]

/-! ### Reads -/

/-- The event of a read given by its width and its offset. -/
def readEvent (p : Nat × Offset) : PortEvent := .access (.read p.1 p.2)

/-- Any number of reads, one after the other, are each answered from the registers as they were before the first, and do
nothing else (R57). -/
theorem run_reads (reads : List (Nat × Offset)) {s : State} {rest : List PortEvent}
    (hp : s.pending = reads.map readEvent ++ rest) :
    Host.Core.run Sys2Proof.core reads.length s =
      .next { s with pending := rest, replies := s.replies ++ reads.map (fun p => readReply s p.1 p.2) } := by
  induction reads generalizing s with
  | nil =>
    obtain rfl : s.pending = rest := hp
    simp [Host.Core.run]
  | cons p reads ih =>
    rw [List.length_cons, run_succ (step_read hp), ih rfl]
    simp [readReply_port]

/-- Settles O8: the two reads and those between are one run of reads, each answered from the same registers. -/
theorem readsHaveNoSideEffect : Obligations.ReadsHaveNoSideEffect := by
  intro s width off between rest hp
  refine ⟨readReply s width off, between.map (fun p => readReply s p.1 p.2), by simp, ?_⟩
  have hreads : s.pending = ((width, off) :: (between ++ [(width, off)])).map readEvent ++ rest := by
    simp [hp, readEvent]
  simpa using run_reads _ hreads

/-! ### Independence of the later events -/

/-- What a command does, it does whatever is pending (R33). -/
theorem exec_with_pending {i : Instr} {s t : State} (h : exec i s = .next t) (p : List PortEvent) :
    exec i { s with pending := p } = .next { t with pending := p } := by
  cases i with
  | mov dst src => cases h; cases dst <;> cases src <;> rfl
  | popcnt src | bitidx src => cases h; cases src <;> rfl
  | _ => cases h; rfl

/-- What a CMD write does, it does whatever is pending. -/
theorem issueCommand_with_pending {v : Word} {s t : State} (h : issueCommand v s = .next t) (p : List PortEvent) :
    issueCommand v { s with pending := p } = .next { t with pending := p } := by
  unfold issueCommand at h ⊢
  split at h
  · exact exec_with_pending h p
  · cases h
    rfl

/-- What an access does, it does whatever is pending (R60). -/
theorem performAccess_with_pending {a : HostAccess} {s t : State} (h : performAccess a s = .next t) (p : List PortEvent) :
    performAccess a { s with pending := p } = .next { t with pending := p } := by
  cases a with
  | read width off =>
    rw [performAccess_read] at h ⊢
    cases h
    rw [readReply_port s p s.replies]
    rfl
  | write width off v =>
    by_cases hok : accessOk width off = true
    · by_cases hc : windowReg off = .cmd
      · obtain ⟨u, hu, -⟩ := issueCommand_completes v s
        rw [performAccess_write_of_cmd hok hc, hu] at h
        rw [performAccess_write_of_cmd hok hc, issueCommand_with_pending hu]
        cases h
        rfl
      · rw [performAccess_write_of_ne_cmd hok hc] at h ⊢
        cases h
        rw [windowWrite_with_pending]
        rfl
    · rw [performAccess_write_of_not_ok hok] at h ⊢
      cases h
      rfl

/-- What an event does, it does whatever is pending. -/
theorem performEvent_with_pending {e : PortEvent} {s t : State} (h : performEvent e s = .next t) (p : List PortEvent) :
    performEvent e { s with pending := p } = .next { t with pending := p } := by
  cases e with
  | access a => exact performAccess_with_pending h p
  | reset => cases h; rfl

/-- Every event at the port completes (R170). -/
theorem performEvent_completes (e : PortEvent) (s : State) : ∃ t, performEvent e s = .next t := by
  cases e with
  | access a =>
    obtain ⟨t, -, h, -⟩ := performAccess_answers a s
    exact ⟨t, h⟩
  | reset => exact ⟨_, rfl⟩

/-- Settles O11: the state the first event leads to is the one it leads to with nothing else pending. -/
theorem laterAccessesAreNotObserved : Obligations.LaterAccessesAreNotObserved := by
  intro s e later later'
  obtain ⟨t, ht⟩ := performEvent_completes e s
  exact ⟨t, performEvent_with_pending ht later, performEvent_with_pending ht later'⟩

/-! ### One answer for each access -/

/-- A step takes the first event away and answers it if it is an access (R60). -/
theorem step_takes_first {s : State} {e : PortEvent} {rest : List PortEvent} (hp : s.pending = e :: rest) :
    ∃ t rs, step s = .next t ∧ t.pending = rest ∧ t.replies = s.replies ++ rs ∧
      List.Forall₂ AnsweredBy e.access?.toList rs := by
  cases e with
  | reset => exact ⟨_, [], step_reset hp, rfl, by simp, .nil⟩
  | access a =>
    obtain ⟨t, r, h, hpend, hrep, hr⟩ := performAccess_answers a { s with pending := rest }
    exact ⟨t, [r], (step_access hp).trans h, hpend, hrep, .cons hr .nil⟩

/-- Settles O12, by induction on the number of steps, each of which takes the first event (`step_takes_first`). -/
theorem everyAccessIsAnsweredInOrder : Obligations.EveryAccessIsAnsweredInOrder := by
  intro s k hk
  induction k generalizing s with
  | zero => exact ⟨s, [], rfl, rfl, by simp, .nil⟩
  | succ k ih =>
    obtain ⟨e, rest, hp⟩ : ∃ e rest, s.pending = e :: rest := List.exists_cons_of_length_pos (by omega)
    obtain ⟨u, rs, hstep, hpend, hrep, hans⟩ := step_takes_first hp
    obtain ⟨t, rs', hrun, hpend', hrep', hans'⟩ := ih u (by simpa [hp, hpend] using hk)
    refine ⟨t, rs ++ rs', (run_succ hstep k).trans hrun, ?_, ?_, ?_⟩
    · rw [hpend', hpend, hp, List.drop_succ_cons]
    · rw [hrep', hrep, List.append_assoc]
    · rw [hp, List.take_succ_cons, ← hpend]
      have hsplit : (e :: u.pending.take k).filterMap PortEvent.access? =
          e.access?.toList ++ (u.pending.take k).filterMap PortEvent.access? := by
        cases h : e.access? <;> simp [h]
      rw [hsplit]
      exact List.rel_append hans hans'

end Sys2Proof.Machine
end

section
/-! PROOFS. The platform's sequence of several masters' accesses (20_memory.md R60, R66). -/

namespace Sys2Proof.Machine

/-- Where every list has an access, taking from one of them takes its first and leaves the others and the rest of it. -/
theorem takeFrom_of_live {k : Nat} {live : List (List HostAccess)} (hlive : ∀ m ∈ live, m ≠ []) (hk : k < live.length) :
    ∃ pre a l post, live = pre ++ (a :: l) :: post ∧ takeFrom k live = some (a, pre ++ l :: post) := by
  induction live generalizing k with
  | nil => simp at hk
  | cons m ms ih =>
    cases k with
    | zero =>
      obtain ⟨a, l, rfl⟩ := List.exists_cons_of_ne_nil (hlive m List.mem_cons_self)
      exact ⟨[], a, l, ms, rfl, rfl⟩
    | succ k =>
      obtain ⟨pre, a, l, post, rfl, htake⟩ :=
        ih (fun m' hm' => hlive m' (List.mem_cons_of_mem m hm')) (Nat.lt_of_succ_lt_succ hk)
      exact ⟨m :: pre, a, l, post, rfl, by simp [takeFrom, htake]⟩

/-- The masters that still have an access. -/
def liveMasters (masters : List (List HostAccess)) : List (List HostAccess) := masters.filter (fun m => !m.isEmpty)

theorem mem_liveMasters {masters : List (List HostAccess)} {m : List HostAccess} :
    m ∈ liveMasters masters ↔ m ∈ masters ∧ m ≠ [] := by simp [liveMasters]

theorem flatten_liveMasters (masters : List (List HostAccess)) : (liveMasters masters).flatten = masters.flatten :=
  List.flatten_filter_not_isEmpty

/-- One turn: with accesses left, the first of some master's is the next of the sequence, and the others are left (R66). -/
theorem serializeWith_turn (pick : Nat → Nat) (turn : Nat) {n : Nat} {masters : List (List HostAccess)}
    (hn : masters.flatten.length = n + 1) :
    ∃ pre a l post, liveMasters masters = pre ++ (a :: l) :: post ∧ (pre ++ l :: post).flatten.length = n ∧
      serializeWith pick (n + 1) turn masters = a :: serializeWith pick n (turn + 1) (pre ++ l :: post) := by
  have hpos : 0 < (liveMasters masters).length := by
    rw [List.length_pos_iff]
    intro hnil
    simp [← flatten_liveMasters, hnil] at hn
  obtain ⟨pre, a, l, post, hsplit, htake⟩ :=
    takeFrom_of_live (fun m hm => (mem_liveMasters.1 hm).2) (Nat.mod_lt (pick turn) hpos)
  refine ⟨pre, a, l, post, hsplit, ?_, ?_⟩
  · rw [← flatten_liveMasters, hsplit] at hn
    simp only [List.flatten_append, List.flatten_cons, List.length_append, List.length_cons] at hn ⊢
    omega
  · rw [serializeWith]
    unfold liveMasters at htake
    simp only [htake]

/-- The sequence holds exactly the masters' accesses. -/
theorem serializeWith_perm (pick : Nat → Nat) {n : Nat} (turn : Nat) {masters : List (List HostAccess)}
    (hn : masters.flatten.length = n) : (serializeWith pick n turn masters).Perm masters.flatten := by
  induction n generalizing turn masters with
  | zero => rw [List.eq_nil_of_length_eq_zero hn]; exact .nil
  | succ n ih =>
    obtain ⟨pre, a, l, post, hlive, hleft, hserial⟩ := serializeWith_turn pick turn hn
    rw [hserial, ← flatten_liveMasters, hlive]
    calc List.Perm (a :: serializeWith pick n (turn + 1) (pre ++ l :: post)) (a :: (pre ++ l :: post).flatten) :=
          (ih (turn + 1) hleft).cons a
      List.Perm _ (pre ++ (a :: l) :: post).flatten := by simpa using List.perm_middle.symm

/-- The sequence has every master's accesses in the master's order. -/
theorem sublist_serializeWith (pick : Nat → Nat) {n : Nat} (turn : Nat) {masters : List (List HostAccess)}
    (hn : masters.flatten.length = n) {m : List HostAccess} (hm : m ∈ masters) :
    m.Sublist (serializeWith pick n turn masters) := by
  induction n generalizing turn masters m with
  | zero =>
    have hall : m.Sublist masters.flatten := List.sublist_flatten_of_mem hm
    rwa [List.eq_nil_of_length_eq_zero hn] at hall
  | succ n ih =>
    by_cases hnil : m = []
    · rw [hnil]; exact List.nil_sublist _
    obtain ⟨pre, a, l, post, hlive, hleft, hserial⟩ := serializeWith_turn pick turn hn
    rw [hserial]
    have hmem : m ∈ pre ++ (a :: l) :: post := hlive ▸ mem_liveMasters.2 ⟨hm, hnil⟩
    obtain rfl | hother : m = a :: l ∨ m ∈ pre ++ l :: post := by
      simp only [List.mem_append, List.mem_cons] at hmem ⊢
      tauto
    · exact (ih (turn + 1) hleft (by simp)).cons_cons a
    · exact (ih (turn + 1) hleft hother).cons a

/-- Settles O13: the fuel is the number of accesses, so the sequence ends only when every master's are used up. -/
theorem serializationKeepsEachMastersOrder : Obligations.SerializationKeepsEachMastersOrder := by
  intro pick masters
  have hn : masters.flatten.length = (masters.map List.length).sum := List.length_flatten
  exact ⟨serializeWith_perm pick 0 hn, fun m hm => sublist_serializeWith pick 0 hn hm⟩

end Sys2Proof.Machine
end

section
/-! PROOFS. The statements about the register window: its map, its bad accesses, its bytes and its addresses (20_memory.md R51 to
R56). -/

namespace Sys2Proof.Machine

/-- The command a CMD write's low half means, when its high half is 0 (R27). -/
theorem decodeCmd_of_highHalf {v : Word} (h : highHalf v = 0) : decodeCmd v = decodeWord (lowHalf v) := by
  rw [decodeCmd, if_pos h]

/-- Settles O6, by the rules for a read, a write and a CMD write; what is left is the map, evaluated at each of its offsets. -/
theorem registerMapReadsAndWrites : Obligations.RegisterMapReadsAndWrites := by
  intro s rest
  refine ⟨fun p hmem hp => ?_, fun v p hmem hp => ?_, fun v hp i hhigh hlow t ht => ?_⟩
  · have hmap : readReply s 64 p.1 = .data p.2 := by
      fin_cases hmem <;> dsimp only <;> rfl
    rw [step_read hp, hmap]
  · have hmap : p.1.toNat % 8 = 0 ∧ windowReg p.1 ≠ .cmd ∧ windowWrite s (windowReg p.1) v = p.2 := by
      fin_cases hmem <;> dsimp only <;> exact ⟨rfl, by decide, rfl⟩
    obtain ⟨ha, hc, hw⟩ := hmap
    rw [step_windowWrite hp ha hc, hw]
  · have hd : decodeCmd v = .ok i := (decodeCmd_of_highHalf hhigh).trans hlow
    rw [step_legal_cmdWrite hp hd, ht]
    rfl

/-- A performed access is not answered with a bus error (R56). -/
theorem not_busError_of_answeredBy {a : HostAccess} {r : Reply} {off : Offset}
    (ha : a = .read 64 off ∨ ∃ v, a = .write 64 off v) (hoff : off.toNat % 8 = 0) (h : AnsweredBy a r) (off' : Offset) :
    r ≠ .busError off' := by
  obtain rfl | ⟨v, rfl⟩ := ha
  · obtain ⟨v, rfl⟩ : ∃ v, r = .data v := by simpa [AnsweredBy, hoff] using h
    simp
  · obtain rfl : r = .done := by simpa [AnsweredBy, hoff] using h
    simp

/-- Settles O7, by the rule for a bad access and by the kinds of answer (`performAccess_answers`). -/
theorem busErrorExactlyForBadAccess : Obligations.BusErrorExactlyForBadAccess := by
  intro s width off v rest hp
  refine ⟨step_badAccess hp, ?_⟩
  rintro rfl hoff
  obtain ⟨a, ha, hpa⟩ : ∃ a, (a = .read 64 off ∨ ∃ v, a = .write 64 off v) ∧ s.pending = .access a :: rest := by
    obtain hp | hp := hp
    · exact ⟨_, .inl rfl, hp⟩
    · exact ⟨_, .inr ⟨v, rfl⟩, hp⟩
  obtain ⟨t, r, h, -, hrep, hr⟩ := performAccess_answers a { s with pending := rest }
  exact ⟨t, r, (step_access hpa).trans h, hrep, not_busError_of_answeredBy ha hoff hr⟩

/-- The bytes of an aligned offset's slot stand at the offsets next to it, and do not wrap (R54). -/
theorem toNat_add_byte {off : Offset} {k : Nat} (ha : off.toNat % 8 = 0) (hk : k < 8) :
    (off + BitVec.ofNat 7 k).toNat = off.toNat + k := by
  have hlt := off.isLt
  rw [BitVec.toNat_add, BitVec.toNat_ofNat]
  omega

/-- The offsets of one slot have one register (R52). -/
theorem windowReg_congr {off off' : Offset} (h : off.toNat / 8 = off'.toNat / 8) : windowReg off = windowReg off' := by
  rw [windowReg, h]
  rfl

/-- Settles O9: byte `k` of a slot is lane `k` of the slot's register. -/
theorem bytesOfTheWindowAreLittleEndian : Obligations.BytesOfTheWindowAreLittleEndian := by
  intro s off k b ha hk hb
  have hadd := toNat_add_byte ha hk
  have hreg : windowReg (off + BitVec.ofNat 7 k) = windowReg off := windowReg_congr (by omega)
  have hlane : (off + BitVec.ofNat 7 k).toNat % 8 = k := by omega
  rw [windowByte, hreg, hlane, byteLane, BitVec.getLsbD_extractLsb', decide_eq_true hb, Bool.true_and]

/-- Settles O10: in the window, an offset is the distance from the base, which is below 0x80. -/
theorem platformDecodesTheWindow : Obligations.PlatformDecodesTheWindow := by
  refine ⟨Nat.mul_mod_right _ _, fun addr off => ?_⟩
  have hlt := off.isLt
  unfold offsetOfAddress Config.windowBytes
  split
  case isTrue h =>
    rw [Option.some.injEq, ← BitVec.toNat_inj, BitVec.toNat_ofNat]
    omega
  case isFalse h =>
    simp only [reduceCtorEq, false_iff]
    omega

end Sys2Proof.Machine
end

section
/-! PROOFS. The statements about the encoding: the decoder and the encoder are inverses, which words are legal, the rows of R74
(30_encoding.md R70 to R74). -/

namespace Sys2Proof.Machine

/-! ### A word and its fields (R70) -/

/-- The four fields are the whole word. -/
theorem eq_of_fields {w w' : CmdWord} (hop : opField w = opField w') (hsrc : srcField w = srcField w')
    (hdst : dstField w = dstField w') (hrsv : rsvField w = rsvField w') : w = w' := by
  have hlt := w.isLt
  have hlt' := w'.isLt
  simp only [opField, srcField, dstField, rsvField, ← BitVec.toNat_inj, BitVec.extractLsb'_toNat,
    Nat.shiftRight_eq_div_pow] at *
  omega

theorem opField_and (w m : CmdWord) : opField (w &&& m) = opField w &&& opField m := BitVec.extractLsb'_and ..
theorem srcField_and (w m : CmdWord) : srcField (w &&& m) = srcField w &&& srcField m := BitVec.extractLsb'_and ..
theorem dstField_and (w m : CmdWord) : dstField (w &&& m) = dstField w &&& dstField m := BitVec.extractLsb'_and ..
theorem rsvField_and (w m : CmdWord) : rsvField (w &&& m) = rsvField w &&& rsvField m := BitVec.extractLsb'_and ..

/-- A field of a CMD write's low half is the same bits of the value (R27, R70). -/
theorem extractLsb'_lowHalf (v : Word) {start len : Nat} (h : start + len ≤ 32) :
    (lowHalf v).extractLsb' start len = v.extractLsb' start len := by
  apply BitVec.eq_of_getLsbD_eq
  intro i hi
  have hi32 : start + i < 32 := by omega
  simp [lowHalf, hi, hi32]

/-- A CMD write whose high half is 0 is its low half zero-extended (R70). -/
theorem setWidth_lowHalf {v : Word} (h : highHalf v = 0) : (lowHalf v).setWidth 64 = v := by
  have hlt := v.isLt
  simp only [highHalf, lowHalf, ← BitVec.toNat_inj, BitVec.extractLsb'_toNat, BitVec.toNat_setWidth,
    Nat.shiftRight_eq_div_pow, show (0 : BitVec 32).toNat = 0 from rfl] at *
  omega

/-! ### When the decoder answers a command -/

/-- A select code names a register exactly when it is the register's code (R71). -/
theorem regOfCode_eq_some_iff {c : BitVec 3} {r : Reg} : regOfCode c = some r ↔ c = r.code := by
  cases r <;> revert c <;> decide

/-- Code 7 is the one that names no register (R71). -/
theorem exists_code_iff (c : BitVec 3) : (∃ r : Reg, c = r.code) ↔ c.toNat ≤ 6 := by
  have hnamed : ∀ c : BitVec 3, (regOfCode c).isSome = true ↔ c.toNat ≤ 6 := by decide
  simp only [← hnamed c, Option.isSome_iff_exists, regOfCode_eq_some_iff]

/-- The registers with storage have the codes up to 5 (R71). -/
theorem writable_iff (r : Reg) : r.writable = true ↔ r.code.toNat ≤ 5 := by cases r <;> decide

theorem exists_writable_code_iff (c : BitVec 3) : (∃ r : Reg, r.writable = true ∧ c = r.code) ↔ c.toNat ≤ 5 := by
  constructor
  · rintro ⟨r, hr, rfl⟩
    exact (writable_iff r).1 hr
  · intro hc
    obtain ⟨r, rfl⟩ := (exists_code_iff c).2 (by omega)
    exact ⟨r, (writable_iff r).2 hc, rfl⟩

theorem decodePlain_eq_ok_iff {w : CmdWord} {i j : Instr} :
    decodePlain w i = .ok j ↔ (srcField w = 0 ∧ dstField w = 0) ∧ j = i := by
  unfold decodePlain
  split
  case isTrue h => simp [h, eq_comm]
  case isFalse h => simp only [h, reduceCtorEq, false_and]

theorem decodeCount_eq_ok_iff {w : CmdWord} {make : Reg → Instr} {j : Instr} :
    decodeCount w make = .ok j ↔ ∃ src, srcField w = src.code ∧ dstField w = 0 ∧ j = make src := by
  constructor
  · intro h
    unfold decodeCount at h
    split at h
    case h_1 => cases h
    case h_2 src hsrc =>
      split at h
      case isTrue hdst => exact ⟨src, regOfCode_eq_some_iff.1 hsrc, hdst, (Except.ok.inj h).symm⟩
      case isFalse => cases h
  · rintro ⟨src, hsrc, hdst, rfl⟩
    exact decodeCount_eq hsrc hdst make

theorem decodeMov_eq_ok_iff {w : CmdWord} {j : Instr} :
    decodeMov w = .ok j ↔
      ∃ src dst, srcField w = src.code ∧ (dst.writable = true ∧ dstField w = dst.code) ∧ j = .mov dst src := by
  constructor
  · intro h
    unfold decodeMov at h
    split at h
    case h_1 => cases h
    case h_2 src hsrc =>
      split at h
      case h_1 => cases h
      case h_2 dst hdst =>
        split at h
        case isTrue hw =>
          exact ⟨src, dst, regOfCode_eq_some_iff.1 hsrc, ⟨hw, regOfCode_eq_some_iff.1 hdst⟩, (Except.ok.inj h).symm⟩
        case isFalse => cases h
  · rintro ⟨src, dst, hsrc, ⟨hw, hdst⟩, rfl⟩
    exact decodeMov_eq hsrc hdst hw

/-! ### The two inverses -/

/-- The select codes a command's word holds in SRC and DST (R73). -/
def operandCodes : Instr → BitVec 3 × BitVec 3
  | .mov dst src => (src.code, dst.code)
  | .popcnt src | .bitidx src => (src.code, 0)
  | .nop | .init | .swap | .clrst | .scan | .gen | .chk | .classify | .flip | .apply => (0, 0)

/-- A word is a command's encoding exactly when its fields are the command's (R70, R73). -/
theorem eq_encode_iff {w : CmdWord} {i : Instr} :
    w = encode i ↔ rsvField w = 0 ∧ opField w = i.opcode ∧ (srcField w, dstField w) = operandCodes i := by
  obtain ⟨hop, -, hrsv, hfields⟩ := fieldsOfEncoding i
  have hcodes : (srcField (encode i), dstField (encode i)) = operandCodes i := by
    rw [hfields]
    cases i <;> rfl
  constructor
  · rintro rfl
    exact ⟨hrsv, hop, hcodes⟩
  · rintro ⟨hrsv', hop', hcodes'⟩
    obtain ⟨hsrc, hdst⟩ := Prod.mk.inj (hcodes'.trans hcodes.symm)
    exact eq_of_fields (hop'.trans hop.symm) hsrc hdst (hrsv'.trans hrsv.symm)

/-- A word that decodes to a command is the command's encoding (R72: every bit of a legal word is fixed by its command). -/
theorem eq_encode_of_decodeWord {w : CmdWord} {i : Instr} (h : decodeWord w = .ok i) : w = encode i := by
  unfold decodeWord at h
  split at h
  case isFalse => cases h
  case isTrue hrsv =>
    have fields {n : Nat} (hop : (opField w).toNat = n) (hn : i.opcode.toNat = n)
        (hcodes : (srcField w, dstField w) = operandCodes i) : w = encode i :=
      eq_encode_iff.2 ⟨hrsv, BitVec.eq_of_toNat_eq (hop.trans hn.symm), hcodes⟩
    split at h
    case h_4 hop =>
      obtain ⟨src, dst, hsrc, ⟨-, hdst⟩, rfl⟩ := decodeMov_eq_ok_iff.1 h
      exact fields hop rfl (Prod.ext hsrc hdst)
    case h_6 hop | h_7 hop =>
      obtain ⟨src, hsrc, hdst, rfl⟩ := decodeCount_eq_ok_iff.1 h
      exact fields hop rfl (Prod.ext hsrc hdst)
    case h_14 => cases h
    all_goals
      obtain ⟨⟨hsrc, hdst⟩, rfl⟩ := decodePlain_eq_ok_iff.1 h
      exact fields ‹_› rfl (Prod.ext hsrc hdst)

theorem decodeWord_eq_ok_iff {w : CmdWord} {i : Instr} :
    decodeWord w = .ok i ↔ i.wellFormed = true ∧ w = encode i := by
  constructor
  · exact fun h => ⟨wellFormed_of_decodeWord h, eq_encode_of_decodeWord h⟩
  · rintro ⟨hi, rfl⟩
    exact decodeWord_encode hi

theorem decodeCmd_eq_ok_iff {v : Word} {i : Instr} :
    decodeCmd v = .ok i ↔ highHalf v = 0 ∧ decodeWord (lowHalf v) = .ok i := by
  unfold decodeCmd
  split
  case isTrue h => simp only [h, true_and]
  case isFalse h => simp only [h, reduceCtorEq, false_and]

/-- Settles O1: the words by `decodeWord_eq_ok_iff`, and the CMD values because a legal one is its low half zero-extended. -/
theorem decodeExactlyInvertsEncode : Obligations.DecodeExactlyInvertsEncode := by
  refine ⟨fun w i => decodeWord_eq_ok_iff, fun v i => ⟨fun h => ?_, ?_⟩⟩
  · obtain ⟨hhigh, hlow⟩ := decodeCmd_eq_ok_iff.1 h
    obtain ⟨hi, hw⟩ := decodeWord_eq_ok_iff.1 hlow
    exact ⟨hi, by rw [encodeCmd, ← hw, setWidth_lowHalf hhigh]⟩
  · rintro ⟨hi, rfl⟩
    rw [encodeCmd, decodeCmd_setWidth, decodeWord_encode hi]

/-! ### The legal words -/

/-- R72 on the four fields of a word. -/
def LegalFields (op : BitVec 4) (src dst : BitVec 3) (rsv : BitVec 22) : Prop :=
  rsv = 0 ∧ op.toNat ≤ 12 ∧ (op.toNat = 3 → src.toNat ≤ 6 ∧ dst.toNat ≤ 5) ∧
    (op.toNat = 5 ∨ op.toNat = 6 → src.toNat ≤ 6 ∧ dst.toNat = 0) ∧
    (op.toNat ≠ 3 → op.toNat ≠ 5 → op.toNat ≠ 6 → src.toNat = 0 ∧ dst.toNat = 0)

theorem toNat_eq_zero_iff {n : Nat} (c : BitVec n) : c.toNat = 0 ↔ c = 0 := by
  rw [← BitVec.toNat_inj]; rfl

theorem exists_decodePlain_iff (w : CmdWord) (i : Instr) :
    (∃ j, decodePlain w i = .ok j) ↔ (srcField w).toNat = 0 ∧ (dstField w).toNat = 0 := by
  simp [decodePlain_eq_ok_iff, toNat_eq_zero_iff]

theorem exists_decodeCount_iff (w : CmdWord) (make : Reg → Instr) :
    (∃ j, decodeCount w make = .ok j) ↔ (srcField w).toNat ≤ 6 ∧ (dstField w).toNat = 0 := by
  simp only [decodeCount_eq_ok_iff, ← exists_code_iff, toNat_eq_zero_iff]
  exact ⟨fun ⟨_, src, hsrc, hdst, _⟩ => ⟨⟨src, hsrc⟩, hdst⟩, fun ⟨⟨src, hsrc⟩, hdst⟩ => ⟨_, src, hsrc, hdst, rfl⟩⟩

theorem exists_decodeMov_iff (w : CmdWord) :
    (∃ j, decodeMov w = .ok j) ↔ (srcField w).toNat ≤ 6 ∧ (dstField w).toNat ≤ 5 := by
  simp only [decodeMov_eq_ok_iff, ← exists_code_iff, ← exists_writable_code_iff]
  exact ⟨fun ⟨_, src, dst, hsrc, hdst, _⟩ => ⟨⟨src, hsrc⟩, dst, hdst⟩,
    fun ⟨⟨src, hsrc⟩, dst, hdst⟩ => ⟨_, src, dst, hsrc, hdst, rfl⟩⟩

/-- The decoder answers a command for exactly the words that R72 calls legal. -/
theorem exists_decodeWord_iff (w : CmdWord) :
    (∃ i, decodeWord w = .ok i) ↔ LegalFields (opField w) (srcField w) (dstField w) (rsvField w) := by
  unfold decodeWord LegalFields
  split
  case isFalse hrsv => simp only [hrsv, reduceCtorEq, exists_false, false_and]
  case isTrue hrsv =>
    split
    case h_4 hop => simp [exists_decodeMov_iff, hrsv, hop]
    case h_6 hop | h_7 hop => simp [exists_decodeCount_iff, hrsv, hop]
    case h_14 =>
      have hop : ¬(opField w).toNat ≤ 12 := by
        intro hle
        interval_cases (opField w).toNat <;> contradiction
      simp [hop]
    all_goals
      rename_i hop
      simp only [exists_decodePlain_iff, hop]
      simp [hrsv]

/-- R171: an illegal command sets IC and changes nothing else. -/
theorem recordIllegal_effect (s : State) :
    getFlag (recordIllegal s).STATUS .IC = true ∧ OnlyFlags [.IC] s.STATUS (recordIllegal s).STATUS ∧
      recordIllegal s = { s with STATUS := (recordIllegal s).STATUS } := by
  refine ⟨by simp, fun i hi => ?_, rfl⟩
  have hne : i ≠ Flag.IC.place := by simpa using hi
  simp [getLsbD_putFlag, hne]

/-- Settles O2: legality by the fields of the value's low half, the rest by what an illegal CMD write does. -/
theorem legalWordsAreThoseOfR72 : Obligations.LegalWordsAreThoseOfR72 := by
  refine fun v => ⟨?_, fun hillegal s => ?_⟩
  · simp only [decodeCmd_eq_ok_iff, exists_and_left, exists_decodeWord_iff, LegalFields, opField, srcField, dstField, rsvField]
    rw [extractLsb'_lowHalf v (by decide), extractLsb'_lowHalf v (by decide), extractLsb'_lowHalf v (by decide),
      extractLsb'_lowHalf v (by decide)]
    exact and_left_comm
  · obtain ⟨i, hi, -⟩ | ⟨-, -, h⟩ := issueCommand_cases v s
    · exact absurd ⟨i, hi⟩ hillegal
    · exact ⟨recordIllegal s, h, recordIllegal_effect s⟩

/-! ### The rows of R74 -/

/-- Two rows whose patterns differ in a bit that both fix have no word in common. -/
theorem not_holds_of_clash {a b : PatternRow} (hclash : a.pattern &&& b.mask ≠ b.pattern &&& a.mask) (w : CmdWord) :
    ¬(a.holds w = true ∧ b.holds w = true) := by
  simp only [PatternRow.holds, beq_iff_eq]
  rintro ⟨ha, hb⟩
  apply hclash
  rw [← ha, ← hb, BitVec.and_assoc, BitVec.and_assoc, BitVec.and_comm a.mask]

/-- A word agrees with a row exactly when it does so in each field. -/
theorem holds_iff (r : PatternRow) (w : CmdWord) :
    r.holds w = true ↔
      opField w &&& opField r.mask = opField r.pattern ∧ srcField w &&& srcField r.mask = srcField r.pattern ∧
      dstField w &&& dstField r.mask = dstField r.pattern ∧ rsvField w &&& rsvField r.mask = rsvField r.pattern := by
  simp only [PatternRow.holds, beq_iff_eq, ← opField_and, ← srcField_and, ← dstField_and, ← rsvField_and]
  constructor
  · intro h
    simp only [h, and_self]
  · rintro ⟨hop, hsrc, hdst, hrsv⟩
    exact eq_of_fields hop hsrc hdst hrsv

/-- The row of R74 for an opcode: MOV's has letters in SRC and DST, POPCNT's and BITIDX's in SRC, the others' has none. -/
def rowOf (op : BitVec 4) : PatternRow where
  mask := if op.toNat = 3 then 0xFFFFFC0F else if op.toNat = 5 ∨ op.toNat = 6 then 0xFFFFFF8F else 0xFFFFFFFF
  pattern := op.setWidth 32

/-- The table is the rows of the opcodes up to 12. -/
theorem mem_patternRows_iff {r : PatternRow} : r ∈ patternRows ↔ ∃ op : BitVec 4, op.toNat ≤ 12 ∧ r = rowOf op := by
  constructor
  · have hrow : ∀ r ∈ patternRows, (opField r.pattern).toNat ≤ 12 ∧ r = rowOf (opField r.pattern) := by decide
    exact fun hr => ⟨opField r.pattern, hrow r hr⟩
  · have hmem : ∀ op : BitVec 4, op.toNat ≤ 12 → rowOf op ∈ patternRows := by decide
    rintro ⟨op, hop, rfl⟩
    exact hmem op hop

theorem fields_rowOf_pattern (op : BitVec 4) :
    opField (rowOf op).pattern = op ∧ srcField (rowOf op).pattern = 0 ∧ dstField (rowOf op).pattern = 0 ∧
      rsvField (rowOf op).pattern = 0 := by
  revert op
  decide

theorem fields_rowOf_mask (op : BitVec 4) :
    opField (rowOf op).mask = BitVec.allOnes 4 ∧
      srcField (rowOf op).mask = (if op.toNat = 3 ∨ op.toNat = 5 ∨ op.toNat = 6 then 0 else BitVec.allOnes 3) ∧
      dstField (rowOf op).mask = (if op.toNat = 3 then 0 else BitVec.allOnes 3) ∧
      rsvField (rowOf op).mask = BitVec.allOnes 22 := by
  revert op
  decide

/-- What a word that matches the row of an opcode holds in its fields (R74). -/
theorem holds_rowOf_iff (op : BitVec 4) (w : CmdWord) :
    (rowOf op).holds w = true ↔ opField w = op ∧ (¬(op.toNat = 3 ∨ op.toNat = 5 ∨ op.toNat = 6) → srcField w = 0) ∧
      (op.toNat ≠ 3 → dstField w = 0) ∧ rsvField w = 0 := by
  obtain ⟨hop, hsrc, hdst, hrsv⟩ := fields_rowOf_pattern op
  obtain ⟨hop', hsrc', hdst', hrsv'⟩ := fields_rowOf_mask op
  have hand {n : Nat} (p : Prop) [Decidable p] (c : BitVec n) :
      c &&& (if p then 0 else BitVec.allOnes n) = 0 ↔ (¬p → c = 0) := by
    split <;> simp [*]
  rw [holds_iff, hop, hsrc, hdst, hrsv, hop', hsrc', hdst', hrsv', hand, hand, BitVec.and_allOnes, BitVec.and_allOnes]

/-- The rows of MOV, POPCNT and BITIDX are told by their patterns. -/
theorem rowOf_pattern_eq_iff (op : BitVec 4) :
    ((rowOf op).pattern = 0x003 ↔ op.toNat = 3) ∧ ((rowOf op).pattern = 0x005 ↔ op.toNat = 5) ∧
      ((rowOf op).pattern = 0x006 ↔ op.toNat = 6) := by
  revert op
  decide

/-- R72's bounds on a select code are R74's forbidden values. -/
theorem toNat_le_six_iff (c : BitVec 3) : c.toNat ≤ 6 ↔ c ≠ 7 := by
  revert c
  decide

theorem toNat_le_five_iff (c : BitVec 3) : c.toNat ≤ 5 ↔ c ≠ 6 ∧ c ≠ 7 := by
  revert c
  decide

/-- A word is legal exactly when it matches the row of its own opcode and, in the letters' places, has no forbidden value. -/
theorem legalFields_iff_row (w : CmdWord) :
    LegalFields (opField w) (srcField w) (dstField w) (rsvField w) ↔
      (opField w).toNat ≤ 12 ∧ (rowOf (opField w)).holds w = true ∧
        ((rowOf (opField w)).pattern = 0x003 → srcField w ≠ 7 ∧ dstField w ≠ 6 ∧ dstField w ≠ 7) ∧
        ((rowOf (opField w)).pattern = 0x005 ∨ (rowOf (opField w)).pattern = 0x006 → srcField w ≠ 7) := by
  obtain ⟨h3, h5, h6⟩ := rowOf_pattern_eq_iff (opField w)
  rw [h3, h5, h6, holds_rowOf_iff, ← toNat_le_six_iff, ← toNat_le_five_iff, ← toNat_eq_zero_iff,
    ← toNat_eq_zero_iff, LegalFields]
  by_cases hmov : (opField w).toNat = 3
  · simp [hmov, and_comm]
  by_cases hcount : (opField w).toNat = 5 ∨ (opField w).toNat = 6
  · obtain hop | hop := hcount <;> simp [hop, and_comm, and_left_comm, and_assoc]
  · obtain ⟨hne5, hne6⟩ := not_or.1 hcount
    simp [hmov, hne5, hne6, and_comm, and_left_comm, and_assoc]

/-- Settles O3: two rows clash in a bit that both fix, and a legal word is one that matches the row of its own opcode. -/
theorem patternsAreDisjointAndComplete : Obligations.PatternsAreDisjointAndComplete := by
  refine ⟨?_, fun w => (exists_decodeWord_iff w).trans ((legalFields_iff_row w).trans ⟨?_, ?_⟩)⟩
  · have hclash : patternRows.Pairwise (fun a b => a.pattern &&& b.mask ≠ b.pattern &&& a.mask) := by decide
    exact hclash.imp not_holds_of_clash
  · rintro ⟨hop, hrow⟩
    exact ⟨rowOf (opField w), mem_patternRows_iff.2 ⟨_, hop, rfl⟩, hrow⟩
  · rintro ⟨r, hr, hrow⟩
    obtain ⟨op, hop, rfl⟩ := mem_patternRows_iff.1 hr
    obtain ⟨rfl, -⟩ := (holds_rowOf_iff op w).1 hrow.1
    exact ⟨hop, hrow⟩

/-- Settles O4: each word is its command's encoding. -/
theorem tableWordsDecode : Obligations.TableWordsDecode :=
  ⟨decodeWord_encode (i := .nop) rfl, decodeWord_encode (i := .init) rfl, decodeWord_encode (i := .swap) rfl,
    decodeWord_encode (i := .mov .S .L) rfl, decodeWord_encode (i := .mov .L .E) rfl, decodeWord_encode (i := .clrst) rfl,
    decodeWord_encode (i := .popcnt .L) rfl, decodeWord_encode (i := .bitidx .X) rfl, decodeWord_encode (i := .scan) rfl,
    decodeWord_encode (i := .gen) rfl, decodeWord_encode (i := .chk) rfl, decodeWord_encode (i := .classify) rfl,
    decodeWord_encode (i := .flip) rfl, decodeWord_encode (i := .apply) rfl⟩

end Sys2Proof.Machine
end

section
/-! PROOFS. The statements about the masked shift: it steps each cell to its neighbour, and it may be masked first
(40_board_masks_control.md R80 to R83). -/

namespace Sys2Proof.Machine

/-! ### Steps on the board -/

/-- A step leads to a cell exactly when the cell's row and column are those the step adds up to (R80). -/
theorem cellAt_eq_some_iff {e i : Nat} {d : Direction} {j : Nat} :
    cellAt e d j = some i ↔ i < 64 ∧ ((i / 8 : Nat) : Int) = (e / 8 : Nat) + j * rowStep d ∧
      ((i % 8 : Nat) : Int) = (e % 8 : Nat) + j * colStep d := by
  simp only [cellAt]
  generalize ((e / 8 : Nat) : Int) + j * rowStep d = r
  generalize ((e % 8 : Nat) : Int) + j * colStep d = c
  split
  case isTrue h => rw [Option.some.injEq]; omega
  case isFalse h => simp only [reduceCtorEq, false_iff]; omega

theorem rowStep_opposite (d : Direction) : rowStep (opposite d) = -rowStep d := by cases d <;> rfl

theorem colStep_opposite (d : Direction) : colStep (opposite d) = -colStep d := by cases d <;> rfl

/-- As many steps the other way lead back (R80). -/
theorem cellAt_opposite {e i : Nat} (he : e < 64) (hi : i < 64) (d : Direction) (j : Nat) :
    cellAt i (opposite d) j = some e ↔ cellAt e d j = some i := by
  rw [cellAt_eq_some_iff, cellAt_eq_some_iff, rowStep_opposite, colStep_opposite, mul_neg, mul_neg]
  omega

/-- Of a single cell, an occupied place is the cell itself. -/
theorem occupiedAt_bit {i : Nat} (hi : i < 64) (e : Nat) (d : Direction) (j : Nat) :
    occupiedAt (bit i) e d j = true ↔ cellAt e d j = some i := by
  unfold occupiedAt
  split
  case h_1 k hk =>
    simp only [getLsbD_bit, hk, Bool.and_eq_true, decide_eq_true_eq, Option.some.injEq]
    omega
  case h_2 hk => simp [hk]

/-- R83: after one step a single cell occupies the cell one step away, and no other. -/
theorem getLsbD_sh_bit {i c : Nat} (hi : i < 64) (hc : c < 64) (d : Direction) :
    (sh d (bit i)).getLsbD c = true ↔ cellAt i d 1 = some c := by
  rw [getLsbD_sh d _ c hc, occupiedAt_bit hi, cellAt_opposite hi hc]

theorem sh_bit_of_onBoard {i c : Nat} {d : Direction} (hi : i < 64) (h : cellAt i d 1 = some c) : sh d (bit i) = bit c := by
  apply BitVec.eq_of_getLsbD_eq
  intro k hk
  rw [Bool.eq_iff_iff, getLsbD_sh_bit hi hk, h, getLsbD_bit]
  simp [hk, eq_comm]

theorem sh_bit_of_offBoard {i : Nat} {d : Direction} (hi : i < 64) (h : cellAt i d 1 = none) : sh d (bit i) = 0 := by
  by_contra hne
  obtain ⟨k, hk, hbit⟩ := exists_getLsbD_of_ne_zero hne
  simp [getLsbD_sh_bit hi hk, h] at hbit

/-! ### The shift and the bitwise operations -/

theorem shiftDir_or (d : Direction) (a b : Word) : shiftDir d (a ||| b) = shiftDir d a ||| shiftDir d b := by
  cases d with
  | N | W | NE | NW => exact BitVec.ushiftRight_or_distrib ..
  | S | E | SE | SW => exact BitVec.shiftLeft_or_distrib ..

theorem shiftDir_and (d : Direction) (a b : Word) : shiftDir d (a &&& b) = shiftDir d a &&& shiftDir d b := by
  cases d with
  | N | W | NE | NW => exact BitVec.ushiftRight_and_distrib ..
  | S | E | SE | SW => exact BitVec.shiftLeft_and_distrib ..

theorem sh_or (d : Direction) (a b : Word) : sh d (a ||| b) = sh d a ||| sh d b := by
  rw [sh, shiftDir_or, BitVec.and_or_distrib_right]
  rfl

theorem sh_and (d : Direction) (a b : Word) : sh d (a &&& b) = sh d a &&& sh d b := by
  simp only [sh, shiftDir_and]
  ac_nf

@[simp] theorem sh_zero (d : Direction) : sh d 0 = 0 := by cases d <;> rfl

theorem iterate_sh_and (d : Direction) (n : Nat) (a b : Word) :
    (sh d)^[n] (a &&& b) = (sh d)^[n] a &&& (sh d)^[n] b := by
  induction n generalizing a b with
  | zero => rfl
  | succ n ih => simp only [Function.iterate_succ_apply, sh_and, ih]

/-- Eight steps take the full board, and so any, off its edge: no line is longer than eight cells (R83). -/
theorem iterate_sh_eight (d : Direction) (v : Word) : (sh d)^[8] v = 0 := by
  have hfull : (sh d)^[8] (BitVec.allOnes 64) = 0 := by cases d <;> decide
  calc (sh d)^[8] v = (sh d)^[8] (v &&& BitVec.allOnes 64) := by rw [BitVec.and_allOnes]
    _ = (sh d)^[8] v &&& 0 := by rw [iterate_sh_and, hfull]
    _ = 0 := BitVec.and_zero

/-- Settles O25: a single cell's step by the rows and columns of the board, the eight steps by those of the full board. -/
theorem shiftFollowsTheBoard : Obligations.ShiftFollowsTheBoard := by
  intro d
  refine ⟨fun i hi => ?_, fun a b => ⟨sh_or d a b, sh_and d a b⟩, sh_zero d, iterate_sh_eight d⟩
  cases h : cellAt i d 1 with
  | some c => exact sh_bit_of_onBoard hi h
  | none => exact sh_bit_of_offBoard hi h

/-- A mask may be applied before the shift when, shifted, it is the edge mask on every bit that the shift can leave set. -/
theorem sh_eq_shiftDir_and {d : Direction} {mask : Word}
    (hmask : shiftDir d mask = shiftDir d (BitVec.allOnes 64) &&& edgeMask d) (v : Word) :
    sh d v = shiftDir d (v &&& mask) := by
  rw [shiftDir_and, hmask, ← BitVec.and_assoc, ← shiftDir_and, BitVec.and_allOnes]
  rfl

/-- Settles O26: each direction's mask, shifted, is the direction's edge mask on the bits of a shifted full board. -/
theorem maskMayPrecedeTheShift : Obligations.MaskMayPrecedeTheShift := by
  intro d v
  apply sh_eq_shiftDir_and
  cases d <;> decide

end Sys2Proof.Machine
end

section
/-! PROOFS. The statements about NOP, INIT, SWAP, MOV and CLRST (40_board_masks_control.md R84 to R88). -/

namespace Sys2Proof.Machine

/-! ### The words of one command (R72, R73) -/

/-- A well-formed command has one word, its encoding. -/
theorem decodeWord_eq_ok_iff_eq {i : Instr} {word : CmdWord} (hi : i.wellFormed = true) (hword : encode i = word)
    (w : CmdWord) : decodeWord w = .ok i ↔ w = word := by
  rw [decodeWord_eq_ok_iff, hword, and_iff_right hi]

/-- A word that decodes to no command is illegal. -/
theorem exists_error_of_not_ok {w : CmdWord} (h : ∀ i, decodeWord w ≠ .ok i) : ∃ c, decodeWord w = .error c := by
  cases hw : decodeWord w with
  | ok i => exact absurd hw (h i)
  | error c => exact ⟨c, rfl⟩

/-- Where an opcode takes no operand, every word of it but its command's is illegal: SRC, DST and RSV must be 0 (R72). -/
theorem exists_error_of_plain_opcode {i : Instr} {w : CmdWord} (hcodes : operandCodes i = (0, 0))
    (hplain : i.opcode.toNat ≠ 3 ∧ i.opcode.toNat ≠ 5 ∧ i.opcode.toNat ≠ 6) (hop : opField w = i.opcode)
    (hw : w ≠ encode i) : ∃ c, decodeWord w = .error c := by
  refine exists_error_of_not_ok fun j hj => hw ?_
  obtain ⟨hrsv, -, -, -, hzero⟩ := (exists_decodeWord_iff w).1 ⟨j, hj⟩
  obtain ⟨hne3, hne5, hne6⟩ := hop ▸ hplain
  obtain ⟨hsrc, hdst⟩ := hzero hne3 hne5 hne6
  rw [toNat_eq_zero_iff] at hsrc hdst
  exact eq_encode_iff.2 ⟨hrsv, hop, by rw [hsrc, hdst, hcodes]⟩

/-! ### NOP, CLRST, SWAP -/

/-- Settles O27: the word by the decoder's inverse, the other words because NOP takes no operand. -/
theorem nopChangesNothing : Obligations.NopChangesNothing :=
  ⟨fun _ => rfl, decodeWord_eq_ok_iff_eq rfl rfl, fun _ => exists_error_of_plain_opcode (i := .nop) rfl (by decide)⟩

/-- Settles O32, as O27; the next state is the definition's. -/
theorem clrstClearsStatus : Obligations.ClrstClearsStatus :=
  ⟨fun _ => rfl, decodeWord_eq_ok_iff_eq rfl rfl, fun _ => exists_error_of_plain_opcode (i := .clrst) rfl (by decide)⟩

/-- SWAP's next state (R86). -/
theorem exec_swap (s : State) : exec .swap s = .next { s with M := s.O, O := s.M } := rfl

/-- Settles O29: the intersection of the boards does not depend on their order. -/
theorem swapExchangesTheBoards : Obligations.SwapExchangesTheBoards := by
  refine ⟨fun s => ⟨exec_swap s, fun t ht => ?_⟩, decodeWord_eq_ok_iff_eq rfl rfl⟩
  obtain rfl := Host.Outcome.next.inj ((exec_swap s).symm.trans ht)
  exact ⟨exec_swap _, fun hI1 => (BitVec.and_comm s.O s.M).trans hI1⟩

/-! ### INIT -/

/-- INIT's next state (R85). -/
theorem exec_init (s : State) : exec .init s = .next { s with M := startMover, O := startOther } := rfl

theorem cells_startMover : cells startMover = [28, 35] := by decide

theorem cells_startOther : cells startOther = [27, 36] := by decide

/-- The mover's moves of the start position (R85). -/
theorem getMoves_start : getMoves startMover startOther = 0x0000102004080000 := by decide

/-- The moves of the other arrangement of the four discs (R85). -/
theorem cells_getMoves_start_mirrored : cells (getMoves startOther startMover) = [20, 29, 34, 43] := by decide

/-- The move on cell 19 of the start position flips cell 27 (R85). -/
theorem flips_start : flips startMover startOther (bit 19) = bit 27 := by decide

/-- Settles O28: the next state, then the facts about the start position. -/
theorem initLoadsTheStartPosition : Obligations.InitLoadsTheStartPosition := by
  refine ⟨fun s => ⟨_, exec_init s, rfl, rfl, cells_startMover, cells_startOther, getMoves_start, by decide,
    flips_start, cells_getMoves_start_mirrored, rfl⟩, decodeWord_eq_ok_iff_eq rfl rfl⟩

/-! ### MOV -/

/-- Only E has no storage (R71). -/
theorem writable_iff_ne_E (r : Reg) : r.writable = true ↔ r ≠ .E := by cases r <;> decide

/-- MOV into a register with storage writes the source's value there (R87). -/
theorem exec_mov {dst : Reg} (hdst : dst ≠ .E) (src : Reg) (s : State) :
    exec (.mov dst src) s = .next (writeReg s dst (readReg s src)) := by
  rw [exec, execMov, if_pos ((writable_iff_ne_E dst).2 hdst)]

/-- The empty cells are in neither board (R9). -/
theorem empty_and_right (m o : Word) : empty m o &&& o = 0 := by
  rw [empty, BitVec.not_or, BitVec.and_assoc, BitVec.and_comm (~~~o), BitVec.and_not_self]
  exact BitVec.and_zero

/-- The only legal selects of a MOV word are those of R71 for SRC and of the registers with storage for DST (R72 item 3). -/
theorem movFields_of_decodeWord {w : CmdWord} {i : Instr} (h : decodeWord w = .ok i) (hop : opField w = 3) :
    srcField w ≠ 7 ∧ dstField w ≠ 6 ∧ dstField w ≠ 7 := by
  obtain ⟨-, -, hmov, -⟩ := (exists_decodeWord_iff w).1 ⟨i, h⟩
  rw [← toNat_le_six_iff, ← toNat_le_five_iff]
  exact hmov (congrArg BitVec.toNat hop)

/-- Settles O30, by `exec_mov`, the rules for a register write, and the decoder's inverse. -/
theorem movCopiesOneRegister : Obligations.MovCopiesOneRegister := by
  refine ⟨fun dst src s hdst => ⟨_, exec_mov hdst src s, ?_, ?_, writeReg_eq s dst _, ?_, ?_⟩, fun w dst src => ?_, ?_⟩
  · rw [readReg_writeReg s dst dst _ hdst hdst, if_pos rfl]
  · intro r hne hr
    rw [readReg_writeReg s dst r _ hdst hr, if_neg hne]
  · rintro rfl
    exact writeReg_readReg s src
  · rintro rfl rfl
    exact empty_and_right s.M s.O
  · rw [decodeWord_eq_ok_iff]
    exact and_congr_left' (writable_iff_ne_E dst)
  · intro w hop hsel
    refine exists_error_of_not_ok fun i hi => ?_
    obtain ⟨hsrc, hdst6, hdst7⟩ := movFields_of_decodeWord hi hop
    obtain h | h | h := hsel
    · exact hsrc h
    · exact hdst6 h
    · exact hdst7 h

end Sys2Proof.Machine
end

section
/-! PROOFS. The lowest set bit, the cells and the number of cells of a bitboard: what `ctz`, `lsb`, `cells` and `popcount` say about
each other (00_scope.md R9), and which bits of STATUS a write of a field leaves. -/

namespace Sys2Proof.Machine

/-! ### Writing fields of STATUS -/

theorem OnlyFlags.refl (fields : List Flag) (st : Word) : OnlyFlags fields st st := fun _ _ => rfl

/-- Writing a listed field leaves every bit outside the list as it was. -/
theorem OnlyFlags.putFlag_of_mem {fields : List Flag} {before after : Word} {f : Flag} (h : OnlyFlags fields before after)
    (hf : f ∈ fields) (b : Bool) : OnlyFlags fields before (putFlag after f b) := by
  intro i hi
  have hne : i ≠ f.place := by
    rintro rfl
    exact hi (List.mem_map_of_mem hf)
  rw [getLsbD_putFlag, if_neg hne, h i hi]

theorem OnlyFlags.setFlagIf_of_mem {fields : List Flag} {before after : Word} {f : Flag} (h : OnlyFlags fields before after)
    (hf : f ∈ fields) (b : Bool) : OnlyFlags fields before (setFlagIf after f b) := by
  cases b
  · exact h
  · exact h.putFlag_of_mem hf true

/-! ### The lowest set bit (R9) -/

/-- No bit below `ctz` is set, and the bit at it is, unless it is 64. -/
theorem ctz_spec (v : Word) :
    (∀ j, j < ctz v → v.getLsbD j = false) ∧ (ctz v < 64 → v.getLsbD (ctz v) = true) := by
  obtain ⟨-, -, hbelow, hset⟩ := firstOne_spec v 64 0
  exact ⟨fun j => hbelow j (Nat.zero_le j), hset⟩

/-- Where `ctz` answers a bit index, it is the index of the lowest set bit. -/
theorem ctz_eq_iff {v : Word} {i : Nat} (hi : i < 64) :
    ctz v = i ↔ v.getLsbD i = true ∧ ∀ j, j < i → v.getLsbD j = false := by
  obtain ⟨hbelow, hset⟩ := ctz_spec v
  constructor
  · rintro rfl
    exact ⟨hset hi, hbelow⟩
  · rintro ⟨hv, hlow⟩
    obtain h | h | h := lt_trichotomy (ctz v) i
    · exact absurd (hset (h.trans hi)) (by simp [hlow _ h])
    · exact h
    · exact absurd hv (by simp [hbelow i h])

theorem ctz_zero : ctz 0 = 64 := by decide

theorem ctz_lt {v : Word} (hv : v ≠ 0) : ctz v < 64 := by
  obtain ⟨i, hi, hbit⟩ := exists_getLsbD_of_ne_zero hv
  by_contra h
  have hclear : v.getLsbD i = false := (ctz_spec v).1 i (by omega)
  exact absurd hbit (by simp [hclear])

/-- The bit of a value that is not 0 at `ctz` is its lowest set bit. -/
theorem getLsbD_ctz {v : Word} (hv : v ≠ 0) :
    v.getLsbD (ctz v) = true ∧ ∀ j, j < ctz v → v.getLsbD j = false := (ctz_eq_iff (ctz_lt hv)).1 rfl

theorem ctz_bit {i : Nat} (hi : i < 64) : ctz (bit i) = i := by
  refine (ctz_eq_iff hi).2 ⟨by simp [getLsbD_bit, hi], fun j hj => ?_⟩
  simp [getLsbD_bit, hj.ne]

theorem lsb_zero : lsb 0 = 0 := by decide

/-- The isolated bit is the pattern of the cell `ctz` names; for 0 that is bit 64, which is discarded (R8). -/
theorem lsb_eq_bit_ctz (v : Word) : lsb v = bit (ctz v) := by
  apply BitVec.eq_of_getLsbD_eq
  intro i hi
  rw [Bool.eq_iff_iff, getLsbD_lsb, ← ctz_eq_iff hi, getLsbD_bit]
  simp [hi, eq_comm]

/-- R98: clearing the isolated bit is `v & (v - 1)`, since `v - 1` is the complement of `neg v`. -/
theorem and_not_lsb (v : Word) : v &&& ~~~lsb v = v &&& (v - 1) := by
  have hnot : ~~~neg v = v - 1 := by
    have hneg : neg v = -v := (BitVec.neg_eq_not_add v).symm
    rw [hneg]
    exact BitVec.not_neg v
  apply BitVec.eq_of_getLsbD_eq
  intro i hi
  rw [← hnot, lsb]
  simp only [BitVec.getLsbD_and, BitVec.getLsbD_not, hi, decide_true, Bool.true_and]
  cases v.getLsbD i <;> simp

/-! ### The cells of a bitboard -/

theorem mem_cells {v : Word} {i : Nat} : i ∈ cells v ↔ v.getLsbD i = true := by
  rw [cells, List.mem_filter, List.mem_range, and_iff_right_iff_imp]
  exact BitVec.lt_of_getLsbD

theorem cells_rising (v : Word) : (cells v).Pairwise (· < ·) := List.pairwise_lt_range.filter _

theorem cells_eq_nil_iff {v : Word} : cells v = [] ↔ v = 0 := by
  rw [List.eq_nil_iff_forall_not_mem, eq_zero_iff_getLsbD]
  simp [mem_cells]

/-- Clearing the isolated bit takes the cell `ctz` names away. -/
theorem mem_cells_and_not_lsb {v : Word} {i : Nat} : i ∈ cells (v &&& ~~~lsb v) ↔ i ∈ cells v ∧ i ≠ ctz v := by
  rw [mem_cells, mem_cells, lsb_eq_bit_ctz, BitVec.getLsbD_and, BitVec.getLsbD_not, getLsbD_bit, Bool.and_eq_true]
  refine and_congr_right fun h => ?_
  simp [BitVec.lt_of_getLsbD h]

/-- The lowest set bit is the first cell, and clearing it leaves the others. -/
theorem cells_eq_cons {v : Word} (hv : v ≠ 0) : cells v = ctz v :: cells (v &&& ~~~lsb v) := by
  obtain ⟨hset, hbelow⟩ := getLsbD_ctz hv
  have hrising : (ctz v :: cells (v &&& ~~~lsb v)).Pairwise (· < ·) := by
    refine List.pairwise_cons.2 ⟨fun i hi => ?_, cells_rising _⟩
    obtain ⟨hiv, hne⟩ := mem_cells_and_not_lsb.1 hi
    refine hne.symm.lt_of_le (Nat.le_of_not_lt fun h => ?_)
    exact absurd (mem_cells.1 hiv) (by simp [hbelow i h])
  refine List.Perm.eq_of_pairwise (fun a b _ _ hab hba => absurd hab hba.asymm) (cells_rising v) hrising ?_
  refine (List.perm_ext_iff_of_nodup (cells_rising v).nodup hrising.nodup).2 fun i => ?_
  rw [List.mem_cons, mem_cells_and_not_lsb]
  by_cases h : i = ctz v
  · simpa [h] using mem_cells.2 hset
  · simp [h]

/-- Clearing the lowest set bit drops the first cell, if there is one. -/
theorem cells_and_not_lsb (v : Word) : cells (v &&& ~~~lsb v) = (cells v).tail := by
  by_cases hv : v = 0
  · subst hv
    decide
  · rw [cells_eq_cons hv, List.tail_cons]

/-! ### The number of cells -/

/-- The population count is the number of cells (R9). -/
theorem popcount_eq_length_cells (v : Word) : popcount v = (cells v).length := by
  rw [popcount, onesBelow_eq_countP, List.countP_eq_length_filter, cells]

theorem popcount_eq_zero_iff (v : Word) : popcount v = 0 ↔ v = 0 := by
  rw [popcount_eq_length_cells, List.length_eq_zero_iff, cells_eq_nil_iff]

/-- Of the first `n` cells, each is counted once among M, O and the empty cells, and once more if it is in both boards. -/
theorem onesBelow_boards (m o : Word) {n : Nat} (hn : n ≤ 64) :
    onesBelow m n + onesBelow o n + onesBelow (empty m o) n = n + onesBelow (m &&& o) n := by
  induction n with
  | zero => rfl
  | succ n ih =>
    have hcell : (m.getLsbD n).toNat + (o.getLsbD n).toNat + ((empty m o).getLsbD n).toNat =
        1 + ((m &&& o).getLsbD n).toNat := by
      have hlt : n < 64 := hn
      rw [empty, BitVec.getLsbD_not, BitVec.getLsbD_or, BitVec.getLsbD_and]
      cases m.getLsbD n <;> cases o.getLsbD n <;> simp [hlt]
    have := ih (Nat.le_of_succ_le hn)
    simp only [onesBelow]
    omega

end Sys2Proof.Machine
end

section
/-! PROOFS. The statements about POPCNT, BITIDX and SCAN (41_bit_utilities.md R95 to R98). -/

namespace Sys2Proof.Machine

/-! ### POPCNT -/

/-- POPCNT's next state (R95). -/
theorem exec_popcnt (src : Reg) (s : State) :
    exec (.popcnt src) s = .next { s with
      CNT := toNarrow (popcount (readReg s src)), STATUS := putFlag s.STATUS .Z (readReg s src == 0) } := rfl

/-- Settles O33: the count is the number of cells and fits in CNT. -/
theorem popcntCountsTheSetBits : Obligations.PopcntCountsTheSetBits := by
  refine ⟨fun src s => ⟨_, exec_popcnt src s, ?_, by simp, (OnlyFlags.refl _ _).putFlag_of_mem (by simp) _, rfl⟩,
    fun w src => ?_⟩
  · exact (toNarrow_toNat (popcount_le _)).trans (popcount_eq_length_cells _)
  · exact decodeWord_eq_ok_iff_eq rfl (by cases src <;> rfl) w

/-- Settles O34, by the count cell by cell; only the empty intersection has no cells. -/
theorem cellCountsSumTo64ExactlyWhenDisjoint : Obligations.CellCountsSumTo64ExactlyWhenDisjoint := by
  intro m o
  have hsum : popcount m + popcount o + popcount (empty m o) = 64 + popcount (m &&& o) := onesBelow_boards m o le_rfl
  refine ⟨hsum, ?_⟩
  rw [hsum, ← popcount_eq_zero_iff]
  omega

/-! ### BITIDX -/

/-- BITIDX's next state (R96). -/
theorem exec_bitidx (src : Reg) (s : State) :
    exec (.bitidx src) s = .next { s with
      IDX := toNarrow (ctz (readReg s src))
      STATUS := setFlagIf (putFlag s.STATUS .Z (readReg s src == 0)) .PV (!single (readReg s src)) } := rfl

/-- The index `ctz` answers is held in IDX as it is (R24). -/
theorem toNat_toNarrow_ctz (v : Word) : (toNarrow (ctz v)).toNat = ctz v := toNarrow_toNat (ctz_le v)

theorem toNarrow_ctz_zero : toNarrow (ctz 0) = 64 := by decide

/-- Settles O35, by what `ctz` answers and because PV records that the source is not `single`. -/
theorem bitidxFindsTheLowestBit : Obligations.BitidxFindsTheLowestBit := by
  refine ⟨fun src s => ⟨_, exec_bitidx src s, ?_⟩, fun w src => ?_⟩
  · dsimp only
    generalize readReg s src = v
    rw [toNat_toNarrow_ctz, ← single_iff]
    refine ⟨?_, fun hv => ⟨ctz_lt hv, getLsbD_ctz hv⟩, ?_, by simp, by simp [or_comm],
      ((OnlyFlags.refl _ _).putFlag_of_mem (by simp) _).setFlagIf_of_mem (by simp) _, rfl⟩
    · rintro rfl
      exact toNarrow_ctz_zero
    · rintro i hi rfl
      exact ctz_bit hi
  · exact decodeWord_eq_ok_iff_eq rfl (by cases src <;> rfl) w

/-! ### SCAN -/

/-- SCAN's next state (R97). -/
theorem exec_scan (s : State) :
    exec .scan s = .next { s with
      X := lsb s.S, IDX := toNarrow (ctz s.S), S := s.S &&& ~~~lsb s.S, STATUS := putFlag s.STATUS .Z (s.S == 0) } := rfl

/-- Settles O36: the isolated bit of an S that is not empty is `bit` of its index. -/
theorem scanTakesTheLowestBit : Obligations.ScanTakesTheLowestBit := by
  refine ⟨fun s => ⟨_, exec_scan s, ?_, ?_, and_not_lsb s.S, by simp, (OnlyFlags.refl _ _).putFlag_of_mem (by simp) _, rfl⟩,
    decodeWord_eq_ok_iff_eq rfl rfl⟩
  · intro hS
    rw [hS]
    exact ⟨lsb_zero, toNarrow_ctz_zero, BitVec.zero_and⟩
  · intro hS
    dsimp only
    obtain ⟨hset, hbelow⟩ := getLsbD_ctz hS
    rw [toNat_toNarrow_ctz, lsb_eq_bit_ctz _]
    exact ⟨ctz_lt hS, hset, hbelow, rfl, rfl⟩

/-! ### Repeated SCANs (R98) -/

/-- One SCAN more is SCAN's next state from the state before. -/
theorem afterScans_succ (n : Nat) (s : State) :
    afterScans (n + 1) s = { afterScans n s with
      X := lsb (afterScans n s).S, IDX := toNarrow (ctz (afterScans n s).S)
      S := (afterScans n s).S &&& ~~~lsb (afterScans n s).S
      STATUS := putFlag (afterScans n s).STATUS .Z ((afterScans n s).S == 0) } := rfl

/-- The invariant of the enumeration: after `n` SCANs, S holds all cells but the first `n`. -/
theorem cells_afterScans (n : Nat) (s : State) : cells (afterScans n s).S = (cells s.S).drop n := by
  induction n with
  | zero => rfl
  | succ n ih => rw [afterScans_succ, cells_and_not_lsb, ih, List.tail_drop]

/-- What the next SCAN writes while S holds a cell: the first cell, its index, and Z = 0. -/
theorem afterScans_succ_of_cons {n c : Nat} {s : State} {rest : List Nat} (h : cells (afterScans n s).S = c :: rest) :
    (afterScans (n + 1) s).X = bit c ∧ (afterScans (n + 1) s).IDX.toNat = c ∧
      getFlag (afterScans (n + 1) s).STATUS .Z = false := by
  have hS : (afterScans n s).S ≠ 0 := fun h0 => by simp [cells_eq_nil_iff.2 h0] at h
  have hc : ctz (afterScans n s).S = c := List.head_eq_of_cons_eq ((cells_eq_cons hS).symm.trans h)
  rw [afterScans_succ]
  exact ⟨(lsb_eq_bit_ctz _).trans (congrArg bit hc), (toNat_toNarrow_ctz _).trans hc, by simpa using hS⟩

/-- What the next SCAN writes when S is empty: the end of the enumeration. -/
theorem afterScans_succ_of_empty {n : Nat} {s : State} (hS : (afterScans n s).S = 0) :
    (afterScans (n + 1) s).X = 0 ∧ (afterScans (n + 1) s).IDX = 64 ∧ getFlag (afterScans (n + 1) s).STATUS .Z = true := by
  rw [afterScans_succ, hS]
  exact ⟨lsb_zero, toNarrow_ctz_zero, by simp⟩

/-- Settles O37, by the invariant `cells_afterScans` and what one SCAN more writes. -/
theorem scansEnumerateInIndexOrder : Obligations.ScansEnumerateInIndexOrder := by
  intro s
  have hend : (afterScans (cells s.S).length s).S = 0 := by
    rw [← cells_eq_nil_iff, cells_afterScans, List.drop_length]
  obtain ⟨hX, hIDX, hZ⟩ := afterScans_succ_of_empty hend
  refine ⟨fun n => rfl, fun j hj => ?_, hend, hX, hIDX, hZ, and_not_lsb⟩
  exact afterScans_succ_of_cons ((cells_afterScans j s).trans (List.drop_eq_getElem_cons hj))

end Sys2Proof.Machine
end

section
/-! PROOFS. The statements about the legal-move function: the datapath of R111 meets the definition of R110, its laws, and LEGAL
(42_move_generation.md R110 to R114). -/

namespace Sys2Proof.Machine

/-! ### Lines of cells -/

theorem opposite_opposite (d : Direction) : opposite (opposite d) = d := by cases d <;> rfl

theorem cellAt_zero {e : Nat} (he : e < 64) (d : Direction) : cellAt e d 0 = some e := by
  rw [cellAt_eq_some_iff]
  simp [he]

/-- A line of cells on the board has at most eight of them (R110). -/
theorem le_seven_of_cellAt {e i j : Nat} {d : Direction} (he : e < 64) (h : cellAt e d j = some i) : j ≤ 7 := by
  rw [cellAt_eq_some_iff] at h
  cases d <;> simp only [rowStep, colStep] at h <;> omega

/-- The cell before the last one of a line is on the board too. -/
theorem exists_cellAt_of_succ {e c j : Nat} {d : Direction} (he : e < 64) (h : cellAt e d (j + 1) = some c) :
    ∃ b, cellAt e d j = some b := by
  refine ⟨((((e / 8 : Nat) : Int) + j * rowStep d).toNat * 8 + (((e % 8 : Nat) : Int) + j * colStep d).toNat), ?_⟩
  rw [cellAt_eq_some_iff] at h ⊢
  cases d <;> simp only [rowStep, colStep] at h ⊢ <;> omega

/-- One step more along a line is one step from its last cell. -/
theorem cellAt_add_one {e b j : Nat} {d : Direction} (h : cellAt e d j = some b) : cellAt e d (j + 1) = cellAt b d 1 := by
  obtain ⟨-, hrow, hcol⟩ := cellAt_eq_some_iff.1 h
  simp only [cellAt, hrow, hcol, Nat.cast_add, Nat.cast_one, add_mul, one_mul, add_assoc]

/-- From its other end, a line of cells is read backwards. -/
theorem cellAt_reverse {e a n j : Nat} {d : Direction} (h : cellAt a d n = some e) (hj : j ≤ n) :
    cellAt e (opposite d) j = cellAt a d (n - j) := by
  obtain ⟨-, hrow, hcol⟩ := cellAt_eq_some_iff.1 h
  simp only [cellAt, hrow, hcol, rowStep_opposite, colStep_opposite, Nat.cast_sub hj, sub_mul, mul_neg, add_sub_assoc,
    ← sub_eq_add_neg]

theorem occupiedAt_reverse {e a n j : Nat} {d : Direction} (b : Word) (h : cellAt a d n = some e) (hj : j ≤ n) :
    occupiedAt b e (opposite d) j = occupiedAt b a d (n - j) := by
  rw [occupiedAt, cellAt_reverse h hj, occupiedAt]

theorem occupiedAt_of_cellAt {e c j : Nat} {d : Direction} (b : Word) (h : cellAt e d j = some c) :
    occupiedAt b e d j = b.getLsbD c := by
  simp [occupiedAt, h]

theorem occupiedAt_eq_true_iff (b : Word) (e : Nat) (d : Direction) (j : Nat) :
    occupiedAt b e d j = true ↔ ∃ c, cellAt e d j = some c ∧ b.getLsbD c = true := by
  cases h : cellAt e d j <;> simp [occupiedAt, h]

theorem occupiedAt_zero (e : Nat) (d : Direction) (j : Nat) : occupiedAt 0 e d j = false := by
  cases h : cellAt e d j <;> simp [occupiedAt, h]

/-- R82, forwards: a cell is occupied after one step exactly when it is one step from an occupied cell. -/
theorem getLsbD_sh_eq_true_iff (d : Direction) (v : Word) (c : Nat) :
    (sh d v).getLsbD c = true ↔ ∃ b, v.getLsbD b = true ∧ cellAt b d 1 = some c := by
  by_cases hc : c < 64
  · rw [getLsbD_sh d v c hc, occupiedAt_eq_true_iff]
    refine exists_congr fun b => and_comm.trans (and_congr_right fun hb => ?_)
    rw [← cellAt_opposite hc (BitVec.lt_of_getLsbD hb), opposite_opposite]
  · rw [BitVec.getLsbD_of_ge _ c (by omega)]
    simp only [cellAt_eq_some_iff, hc, false_and, and_false, exists_false, Bool.false_eq_true]

/-! ### A lane of the datapath (R111, R112) -/

/-- Cell `c` is the last of `i` cells of `o` in a row, the first of them one step in direction `d` from a cell of `m` (R112). -/
def EndsRun (m o : Word) (d : Direction) (i c : Nat) : Prop :=
  ∃ a, m.getLsbD a = true ∧ cellAt a d i = some c ∧ ∀ i', 1 ≤ i' → i' ≤ i → occupiedAt o a d i' = true

/-- A run of no cells ends where it starts. -/
theorem endsRun_zero {m o : Word} {d : Direction} {c : Nat} : EndsRun m o d 0 c ↔ m.getLsbD c = true := by
  constructor
  · rintro ⟨a, ha, hac, -⟩
    rw [cellAt_zero (BitVec.lt_of_getLsbD ha), Option.some.injEq] at hac
    exact hac ▸ ha
  · intro hc
    exact ⟨c, hc, cellAt_zero (BitVec.lt_of_getLsbD hc) d, fun i' h h' => by omega⟩

/-- A run of one cell more ends one step from the end of a run, on a cell of `o`. -/
theorem endsRun_succ {m o : Word} {d : Direction} {i c : Nat} :
    EndsRun m o d (i + 1) c ↔ (∃ b, EndsRun m o d i b ∧ cellAt b d 1 = some c) ∧ o.getLsbD c = true := by
  constructor
  · rintro ⟨a, ha, hac, hrun⟩
    obtain ⟨b, hab⟩ := exists_cellAt_of_succ (BitVec.lt_of_getLsbD ha) hac
    refine ⟨⟨b, ⟨a, ha, hab, fun i' h h' => hrun i' h (by omega)⟩, cellAt_add_one hab ▸ hac⟩, ?_⟩
    exact occupiedAt_of_cellAt o hac ▸ hrun (i + 1) (by omega) le_rfl
  · rintro ⟨⟨b, ⟨a, ha, hab, hrun⟩, hbc⟩, hc⟩
    have hac : cellAt a d (i + 1) = some c := cellAt_add_one hab ▸ hbc
    refine ⟨a, ha, hac, fun i' h h' => ?_⟩
    obtain h' | rfl := Nat.le_succ_iff.1 h'
    · exact hrun i' h h'
    · exact occupiedAt_of_cellAt o hac ▸ hc

/-- R111: the last extension step extends what the steps before it give. -/
theorem extendRun_succ_last (d : Direction) (o : Word) (n : Nat) (t : Word) :
    extendRun d o (n + 1) t = extendRun d o n t ||| (sh d (extendRun d o n t) &&& o) := by
  induction n generalizing t with
  | zero => rfl
  | succ n ih => rw [extendRun_succ, ih, ← extendRun_succ]

/-- R112: after `j` extension steps a lane holds exactly the ends of the runs of 1 to `j + 1` cells. -/
theorem getLsbD_extendRun (d : Direction) (m o : Word) (j c : Nat) :
    (extendRun d o j (sh d m &&& o)).getLsbD c = true ↔ ∃ i, 1 ≤ i ∧ i ≤ j + 1 ∧ EndsRun m o d i c := by
  induction j generalizing c with
  | zero =>
    have hfirst : (sh d m &&& o).getLsbD c = true ↔ EndsRun m o d 1 c := by
      rw [BitVec.getLsbD_and, Bool.and_eq_true, getLsbD_sh_eq_true_iff, endsRun_succ]
      simp only [endsRun_zero]
    refine hfirst.trans ⟨fun h => ⟨1, le_rfl, le_rfl, h⟩, ?_⟩
    rintro ⟨i, h, h', hi⟩
    obtain rfl : i = 1 := by omega
    exact hi
  | succ j ih =>
    rw [extendRun_succ_last, BitVec.getLsbD_or, BitVec.getLsbD_and, Bool.or_eq_true, Bool.and_eq_true,
      getLsbD_sh_eq_true_iff]
    simp only [ih]
    constructor
    · rintro (⟨i, h, h', hi⟩ | ⟨⟨b, ⟨i, h, h', hi⟩, hbc⟩, hc⟩)
      · exact ⟨i, h, by omega, hi⟩
      · exact ⟨i + 1, by omega, by omega, endsRun_succ.2 ⟨⟨b, hi, hbc⟩, hc⟩⟩
    · rintro ⟨i, h, h', hi⟩
      obtain h' | rfl := Nat.le_succ_iff.1 h'
      · exact .inl ⟨i, h, h', hi⟩
      · obtain ⟨⟨b, hb, hbc⟩, hc⟩ := endsRun_succ.1 hi
        exact .inr ⟨⟨b, ⟨j + 1, by omega, le_rfl, hb⟩, hbc⟩, hc⟩

/-! ### The datapath and the definition (R110, R112) -/

/-- The line of R110 from the destination `e` outwards is a run that ends one step before `e`, read the other way. -/
theorem exists_endsRun_iff {m o : Word} {d : Direction} {k e : Nat} (he : e < 64) :
    (∃ b, EndsRun m o d k b ∧ cellAt b d 1 = some e) ↔
      (∀ j, 1 ≤ j → j ≤ k → occupiedAt o e (opposite d) j = true) ∧ occupiedAt m e (opposite d) (k + 1) = true := by
  constructor
  · rintro ⟨b, ⟨a, ha, hab, hrun⟩, hbe⟩
    have hae : cellAt a d (k + 1) = some e := cellAt_add_one hab ▸ hbe
    refine ⟨fun j h h' => ?_, ?_⟩
    · rw [occupiedAt_reverse o hae (by omega)]
      exact hrun _ (by omega) (by omega)
    · rw [occupiedAt_reverse m hae le_rfl, Nat.sub_self, occupiedAt_of_cellAt m (cellAt_zero (BitVec.lt_of_getLsbD ha) d), ha]
  · rintro ⟨hrun, hm⟩
    obtain ⟨a, hea, ha⟩ := (occupiedAt_eq_true_iff ..).1 hm
    have hae : cellAt a d (k + 1) = some e := (cellAt_opposite (BitVec.lt_of_getLsbD ha) he d _).1 hea
    obtain ⟨b, hab⟩ := exists_cellAt_of_succ (BitVec.lt_of_getLsbD ha) hae
    refine ⟨b, ⟨a, ha, hab, fun i h h' => ?_⟩, cellAt_add_one hab ▸ hae⟩
    have hback := hrun (k + 1 - i) (by omega) (by omega)
    rwa [occupiedAt_reverse o hae (by omega), Nat.sub_sub_self (by omega)] at hback

/-- R111: a lane answers the empty cells one step from the end of a run of 1 to `n + 1` cells. -/
theorem getLsbD_laneMoves (n : Nat) (m o : Word) (d : Direction) (e : Nat) :
    (laneMoves n m o d).getLsbD e = true ↔ (empty m o).getLsbD e = true ∧
      ∃ k, 1 ≤ k ∧ k ≤ n + 1 ∧ ∃ b, EndsRun m o d k b ∧ cellAt b d 1 = some e := by
  rw [laneMoves, BitVec.getLsbD_and, Bool.and_eq_true, getLsbD_sh_eq_true_iff, and_comm]
  refine and_congr_right fun _ => ?_
  simp only [getLsbD_extendRun]
  constructor
  · rintro ⟨b, ⟨k, h, h', hk⟩, hbe⟩
    exact ⟨k, h, h', b, hk, hbe⟩
  · rintro ⟨k, h, h', b, hk, hbe⟩
    exact ⟨b, ⟨k, h, h', hk⟩, hbe⟩

/-- R112: five extension steps reach every run, since the mover cell of R110 is at most seven steps away. -/
theorem getLsbD_movesWith_iff_legalDestination {n : Nat} (hn : 5 ≤ n) (m o : Word) (e : Nat) :
    (movesWith n m o).getLsbD e = true ↔ LegalDestination m o e := by
  simp only [getLsbD_movesWith, getLsbD_laneMoves]
  constructor
  · rintro ⟨d, hempty, k, hk, -, hrun⟩
    exact ⟨hempty, opposite d, k, hk, (exists_endsRun_iff (BitVec.lt_of_getLsbD hempty)).1 hrun⟩
  · rintro ⟨hempty, d, k, hk, hrun, hm⟩
    have he : e < 64 := BitVec.lt_of_getLsbD hempty
    obtain ⟨a, hea, -⟩ := (occupiedAt_eq_true_iff ..).1 hm
    have hk7 : k + 1 ≤ 7 := le_seven_of_cellAt he hea
    rw [← opposite_opposite d] at hrun hm
    exact ⟨opposite d, hempty, k, hk, by omega, (exists_endsRun_iff he).2 ⟨hrun, hm⟩⟩

/-- R110, R112: GM is the set of the legal destinations. -/
theorem getLsbD_getMoves (m o : Word) (e : Nat) : (getMoves m o).getLsbD e = true ↔ LegalDestination m o e :=
  getLsbD_movesWith_iff_legalDestination (by decide) m o e

/-- R112: extension steps after the fifth add no move. -/
theorem movesWith_eq_getMoves {n : Nat} (hn : 5 ≤ n) (m o : Word) : movesWith n m o = getMoves m o := by
  apply BitVec.eq_of_getLsbD_eq
  intro e _
  rw [Bool.eq_iff_iff, getLsbD_movesWith_iff_legalDestination hn, getLsbD_getMoves]

/-- Settles O38: the lane's content by induction on the extension steps, the definition by reading each run backwards. -/
theorem genDatapathMeetsTheDefinition : Obligations.GenDatapathMeetsTheDefinition := by
  refine ⟨fun n m o e hn => ⟨getLsbD_movesWith_iff_legalDestination hn m o e, movesWith_eq_getMoves hn m o⟩,
    fun d m o j c => (getLsbD_extendRun d m o j c).trans ⟨?_, ?_⟩⟩
  · rintro ⟨i, h, h', a, hrun⟩
    exact ⟨a, i, h, h', hrun⟩
  · rintro ⟨a, i, h, h', hrun⟩
    exact ⟨i, h, h', a, hrun⟩

/-! ### Laws of GM (R113) -/

/-- GM is 0 exactly when there is no legal destination. -/
theorem getMoves_eq_zero_iff (m o : Word) : getMoves m o = 0 ↔ ∀ e, ¬LegalDestination m o e := by
  simp only [eq_zero_iff_getLsbD, ← getLsbD_getMoves, Bool.not_eq_true]

/-- Only empty cells are legal. -/
theorem getMoves_and_boards (m o : Word) : getMoves m o &&& (m ||| o) = 0 := by
  rw [eq_zero_iff_getLsbD]
  intro e
  rw [BitVec.getLsbD_and, Bool.and_eq_false_imp, getLsbD_getMoves]
  rintro ⟨hempty, -⟩
  simpa [empty, BitVec.lt_of_getLsbD hempty] using hempty

/-- A side with no discs has no cell for a run to end on. -/
theorem getMoves_zero_left (o : Word) : getMoves 0 o = 0 := by
  rw [getMoves_eq_zero_iff]
  rintro e ⟨-, d, k, -, -, hm⟩
  rw [occupiedAt_zero] at hm
  exact Bool.false_ne_true hm

/-- Without a disc of the other side there is no run. -/
theorem getMoves_zero_right (m : Word) : getMoves m 0 = 0 := by
  rw [getMoves_eq_zero_iff]
  rintro e ⟨-, d, k, hk, hrun, -⟩
  have hnext := hrun 1 le_rfl hk
  rw [occupiedAt_zero] at hnext
  exact Bool.false_ne_true hnext

/-- Settles O39: the laws by the definition of R110, the start position by evaluation. -/
theorem legalMovesAreEmptyCells : Obligations.LegalMovesAreEmptyCells :=
  ⟨fun m o => ⟨getMoves_and_boards m o, getMoves_zero_left o, getMoves_zero_right m⟩, getMoves_start, by decide⟩

/-! ### LEGAL (R114) -/

/-- Of a single cell and a set, the common part is the cell or nothing. -/
theorem bit_and (e : Nat) (v : Word) : bit e &&& v = if v.getLsbD e = true then bit e else 0 := by
  apply BitVec.eq_of_getLsbD_eq
  intro i hi
  rw [BitVec.getLsbD_and, getLsbD_bit]
  by_cases hie : i = e
  · subst hie
    cases h : v.getLsbD i <;> simp [getLsbD_bit, hi]
  · cases h : v.getLsbD e <;> simp [getLsbD_bit, hie]

theorem single_bit {e : Nat} (he : e < 64) : single (bit e) = true := (single_iff _).2 ⟨e, he, rfl⟩

/-- A single cell has a population count of 1 in common with a set exactly when it is a member. -/
theorem single_bit_and_iff {e : Nat} (he : e < 64) (v : Word) : single (bit e &&& v) = true ↔ v.getLsbD e = true := by
  rw [bit_and]
  split
  case isTrue h => exact iff_of_true (single_bit he) h
  case isFalse h => exact iff_of_false (by decide) h

/-- LEGAL is two tests of a single bit: of X, and of its common part with GM. -/
theorem legal_eq_single (m o x : Word) : legal m o x = (single x && single (x &&& getMoves m o)) := rfl

/-- Settles O40: a single cell meets GM in itself or in nothing. -/
theorem legalIsMembershipOfASingleBit : Obligations.LegalIsMembershipOfASingleBit := by
  intro m o x
  rw [legal_eq_single, Bool.and_eq_true, single_iff]
  constructor
  · rintro ⟨⟨e, he, rfl⟩, hmem⟩
    exact ⟨e, he, rfl, (single_bit_and_iff he _).1 hmem⟩
  · rintro ⟨e, he, rfl, hmem⟩
    exact ⟨⟨e, he, rfl⟩, (single_bit_and_iff he _).2 hmem⟩

/-- R110, R114: LEGAL tells whether X is the pattern of one legal destination. -/
theorem legal_iff_legalMove (m o x : Word) : legal m o x = true ↔ LegalMove m o x := by
  simp only [legalIsMembershipOfASingleBit m o x, getLsbD_getMoves, LegalMove]

end Sys2Proof.Machine
end

section
/-! PROOFS. The statements about GEN, CHK and CLASS (42_move_generation.md R115 to R117). -/

namespace Sys2Proof.Machine

/-- The Z test of GEN and CLASS tells whether there is no legal destination. -/
theorem getMoves_beq_zero (m o : Word) : (getMoves m o == 0) = true ↔ ∀ e, ¬LegalDestination m o e := by
  rw [beq_iff_eq, getMoves_eq_zero_iff]

/-- The PS test of CLASS asks for a legal destination of the other side. -/
theorem getMoves_bne_zero (m o : Word) : (getMoves m o != 0) = true ↔ ∃ e, LegalDestination m o e := by
  rw [bne_iff_ne, Ne, getMoves_eq_zero_iff, not_forall_not]

/-- R173: `set(IV)` of a board command sets IV when the pair breaks I1 and otherwise keeps it. -/
theorem getFlag_setFlagIf_overlaps (m o st : Word) :
    getFlag (setFlagIf st .IV (overlaps m o)) .IV = true ↔ getFlag st .IV = true ∨ m &&& o ≠ 0 := by
  rw [getFlag_setFlagIf, if_pos rfl, Bool.or_eq_true, overlaps_iff, or_comm]

/-! ### GEN -/

/-- GEN's next state (R115). -/
theorem exec_gen (s : State) :
    exec .gen s = .next { s with
      L := getMoves s.M s.O, STATUS := setFlagIf (putFlag s.STATUS .Z (getMoves s.M s.O == 0)) .IV (overlaps s.M s.O) } := rfl

/-- Settles O41: L is GM, whose cells are the legal destinations. -/
theorem genWritesTheLegalDestinations : Obligations.GenWritesTheLegalDestinations := by
  refine ⟨fun s => ⟨_, exec_gen s, getLsbD_getMoves s.M s.O, ?_, ?_,
    ((OnlyFlags.refl _ _).putFlag_of_mem (by simp) _).setFlagIf_of_mem (by simp) _, rfl⟩, decodeWord_eq_ok_iff_eq rfl rfl⟩
  · rw [← getMoves_beq_zero]
    simp
  · rw [getFlag_setFlagIf_overlaps]
    simp

/-! ### CHK -/

/-- CHK's next state (R116). -/
theorem exec_chk (s : State) :
    exec .chk s = .next { s with
      STATUS := setFlagIf (putFlag s.STATUS .LG (legal s.M s.O s.X)) .IV (overlaps s.M s.O) } := rfl

/-- Settles O42: LG is LEGAL. -/
theorem chkTestsTheMoveOperand : Obligations.ChkTestsTheMoveOperand := by
  refine ⟨fun s => ⟨_, exec_chk s, ?_, ?_,
    ((OnlyFlags.refl _ _).putFlag_of_mem (by simp) _).setFlagIf_of_mem (by simp) _, rfl⟩, decodeWord_eq_ok_iff_eq rfl rfl⟩
  · rw [← legal_iff_legalMove]
    simp
  · rw [getFlag_setFlagIf_overlaps]
    simp

/-! ### CLASS -/

/-- What CLASS leaves in STATUS, from whether each side is without moves and whether the pair breaks I1 (R117). -/
def classStatus (st : Word) (stuck otherStuck broken : Bool) : Word :=
  setFlagIf (putFlag (putFlag (putFlag st .Z stuck) .PS (stuck && !otherStuck)) .TM (stuck && otherStuck)) .IV broken

@[simp] theorem getFlag_classStatus_Z (st : Word) (stuck otherStuck broken : Bool) :
    getFlag (classStatus st stuck otherStuck broken) .Z = stuck := by simp [classStatus]

@[simp] theorem getFlag_classStatus_PS (st : Word) (stuck otherStuck broken : Bool) :
    getFlag (classStatus st stuck otherStuck broken) .PS = (stuck && !otherStuck) := by simp [classStatus]

@[simp] theorem getFlag_classStatus_TM (st : Word) (stuck otherStuck broken : Bool) :
    getFlag (classStatus st stuck otherStuck broken) .TM = (stuck && otherStuck) := by simp [classStatus]

/-- CLASS sets IV for a pair that breaks I1 and otherwise keeps it. -/
theorem getFlag_classStatus_IV (st m o : Word) (stuck otherStuck : Bool) :
    getFlag (classStatus st stuck otherStuck (overlaps m o)) .IV = true ↔ getFlag st .IV = true ∨ m &&& o ≠ 0 := by
  rw [classStatus, getFlag_setFlagIf_overlaps]
  simp

theorem onlyFlags_classStatus (st : Word) (stuck otherStuck broken : Bool) :
    OnlyFlags [.Z, .PS, .TM, .IV] st (classStatus st stuck otherStuck broken) :=
  ((((OnlyFlags.refl _ _).putFlag_of_mem (by simp) _).putFlag_of_mem (by simp) _).putFlag_of_mem (by simp) _).setFlagIf_of_mem
    (by simp) _

/-- CLASS's next state (R117). -/
theorem exec_classify (s : State) :
    exec .classify s = .next { s with
      STATUS := classStatus s.STATUS (getMoves s.M s.O == 0) (getMoves s.O s.M == 0) (overlaps s.M s.O) } := rfl

/-- The three classes of a position (R117), as CLASS's flags show them: playable, terminal, pass. -/
theorem classFlags_mem (stuck otherStuck : Bool) :
    (stuck, stuck && !otherStuck, stuck && otherStuck) ∈
      [(false, false, false), (true, true, false), (true, false, true)] := by
  cases stuck <;> cases otherStuck <;> decide

/-- Settles O43: Z, PS and TM are built from whether each side is without moves. -/
theorem classTellsPassFromTerminal : Obligations.ClassTellsPassFromTerminal := by
  refine ⟨fun s => ⟨_, exec_classify s, ?_, ?_, ?_, ?_, getFlag_classStatus_IV .., onlyFlags_classStatus _ _ _ _, rfl⟩,
    decodeWord_eq_ok_iff_eq rfl rfl⟩
  · rw [getFlag_classStatus_Z, getMoves_beq_zero]
  · rw [getFlag_classStatus_PS, Bool.and_eq_true, getMoves_beq_zero]
    exact and_congr_right' (getMoves_bne_zero s.O s.M)
  · rw [getFlag_classStatus_TM, Bool.and_eq_true, getMoves_beq_zero, getMoves_beq_zero]
  · rw [getFlag_classStatus_Z, getFlag_classStatus_PS, getFlag_classStatus_TM]
    exact classFlags_mem ..

end Sys2Proof.Machine
end

section
/-! PROOFS. The statements about the flip set: the chain of R130 captures exactly the cells of its walks, and the laws of R131
(43_flip_and_apply.md R130, R131). -/

namespace Sys2Proof.Machine

/-! ### The cells of a walk -/

/-- `j` steps take a single cell to the cell `j` steps away, or off the board (R83). -/
theorem getLsbD_iterate_sh_bit {e : Nat} (he : e < 64) (d : Direction) (j c : Nat) :
    ((sh d)^[j] (bit e)).getLsbD c = true ↔ cellAt e d j = some c := by
  induction j generalizing c with
  | zero =>
    rw [Function.iterate_zero_apply, getLsbD_bit, cellAt_zero he, Option.some.injEq, Bool.and_eq_true, decide_eq_true_eq,
      decide_eq_true_eq]
    omega
  | succ j ih =>
    rw [Function.iterate_succ_apply', getLsbD_sh_eq_true_iff]
    simp only [ih]
    constructor
    · rintro ⟨b, hb, hbc⟩
      exact cellAt_add_one hb ▸ hbc
    · intro hc
      obtain ⟨b, hb⟩ := exists_cellAt_of_succ he hc
      exact ⟨b, hb, cellAt_add_one hb ▸ hc⟩

/-- The test of a stage and of a lane's end: the cell `j` steps away is off the board or not in the bitboard. -/
theorem iterate_sh_bit_and_eq_zero_iff {e : Nat} (he : e < 64) (d : Direction) (j : Nat) (b : Word) :
    (sh d)^[j] (bit e) &&& b = 0 ↔ occupiedAt b e d j = false := by
  rw [eq_zero_iff_getLsbD, ← Bool.not_eq_true, occupiedAt_eq_true_iff, not_exists]
  refine forall_congr' fun c => ?_
  rw [BitVec.getLsbD_and, ← Bool.not_eq_true, Bool.and_eq_true, getLsbD_iterate_sh_bit he]

/-- A line from a cell does not come back to it. -/
theorem eq_zero_of_cellAt_self {e j : Nat} {d : Direction} (h : cellAt e d j = some e) : j = 0 := by
  obtain ⟨-, hrow, hcol⟩ := cellAt_eq_some_iff.1 h
  cases d <;> simp only [rowStep, colStep] at hrow hcol <;> omega

/-- The first `k` cells outward from cell `e`, those on the board. -/
def lineCells (d : Direction) (e : Nat) : Nat → Word
  | 0 => 0
  | k + 1 => lineCells d e k ||| (sh d)^[k + 1] (bit e)

theorem getLsbD_lineCells {e : Nat} (he : e < 64) (d : Direction) (k i : Nat) :
    (lineCells d e k).getLsbD i = true ↔ ∃ j, 1 ≤ j ∧ j ≤ k ∧ cellAt e d j = some i := by
  induction k with
  | zero =>
    refine iff_of_false (by simp [lineCells]) ?_
    rintro ⟨j, hj, hj0, -⟩
    omega
  | succ k ih =>
    rw [lineCells, BitVec.getLsbD_or, Bool.or_eq_true, ih, getLsbD_iterate_sh_bit he]
    constructor
    · rintro (⟨j, hj, hjk, hi⟩ | hi)
      · exact ⟨j, hj, by omega, hi⟩
      · exact ⟨k + 1, by omega, le_rfl, hi⟩
    · rintro ⟨j, hj, hjk, hi⟩
      obtain hjk | rfl := Nat.le_succ_iff.1 hjk
      · exact .inl ⟨j, hj, hjk, hi⟩
      · exact .inr hi

/-! ### The run next to a cell (R11) -/

/-- The cells of `o` next to cell `e` in direction `d`, without a gap, are `k` in number. -/
def RunLength (o : Word) (d : Direction) (e k : Nat) : Prop :=
  (∀ j, 1 ≤ j → j ≤ k → occupiedAt o e d j = true) ∧ occupiedAt o e d (k + 1) = false

/-- Every run ends: on the board, or at its edge after at most seven cells (90_conflicts.md C18). -/
theorem exists_runLength {e : Nat} (he : e < 64) (o : Word) (d : Direction) : ∃ k, k ≤ 7 ∧ RunLength o d e k := by
  have hedge : occupiedAt o e d (7 + 1) = false := by
    rw [← Bool.not_eq_true, occupiedAt_eq_true_iff]
    rintro ⟨c, hc, -⟩
    exact absurd (le_seven_of_cellAt he hc) (by decide)
  have hend : ∃ k, occupiedAt o e d (k + 1) = false := ⟨7, hedge⟩
  refine ⟨Nat.find hend, Nat.find_min' hend hedge, fun j hj hjk => ?_, Nat.find_spec hend⟩
  obtain ⟨j, rfl⟩ := Nat.exists_eq_add_of_le' hj
  simpa using Nat.find_min hend hjk

/-- A run does not go on past the end of another run from the same cell. -/
theorem RunLength.le {o : Word} {d : Direction} {e k k' : Nat} (h : RunLength o d e k) (h' : RunLength o d e k') : k' ≤ k := by
  by_contra hlt
  have hin : occupiedAt o e d (k + 1) = true := h'.1 (k + 1) (by omega) (by omega)
  exact absurd hin (by simp [h.2])

theorem RunLength.unique {o : Word} {d : Direction} {e k k' : Nat} (h : RunLength o d e k) (h' : RunLength o d e k') :
    k' = k := le_antisymm (h.le h') (h'.le h)

/-- R130: from inside a run a chain with stages enough passes the rest of the run and stops at the first cell after it. -/
theorem walkStages_lineCells {e : Nat} (he : e < 64) {o : Word} {d : Direction} {k : Nat} (hrun : RunLength o d e k) {n j : Nat}
    (hj : j ≤ k) (hn : k ≤ j + n) :
    walkStages d o n (lineCells d e j) ((sh d)^[j + 1] (bit e)) = (lineCells d e k, (sh d)^[k + 1] (bit e)) := by
  obtain ⟨hin, hend⟩ := hrun
  induction n generalizing j with
  | zero =>
    obtain rfl : j = k := by omega
    rfl
  | succ n ih =>
    have htest := iterate_sh_bit_and_eq_zero_iff he d (j + 1) o
    rw [walkStages_succ]
    obtain rfl | hlt := hj.eq_or_lt
    · rw [if_pos (htest.2 hend)]
    · have hother : occupiedAt o e d (j + 1) = true := hin (j + 1) (by omega) hlt
      rw [if_neg (mt htest.1 (by simp [hother])), ← Function.iterate_succ_apply' (sh d) (j + 1) (bit e)]
      exact ih hlt (by omega)

/-- R130: a lane's chain adds the cells of the run next to the move and ends on the first cell after it. -/
theorem walkStages_of_runLength {e : Nat} (he : e < 64) {o : Word} {d : Direction} {k : Nat} (hrun : RunLength o d e k) {n : Nat}
    (hn : k ≤ n) : walkStages d o n 0 (sh d (bit e)) = (lineCells d e k, (sh d)^[k + 1] (bit e)) :=
  walkStages_lineCells he hrun (Nat.zero_le k) (by omega)

/-- A chain that starts off the board passes nothing. -/
theorem walkStages_zero (d : Direction) (o : Word) (n : Nat) : walkStages d o n 0 0 = (0, 0) := by
  cases n with
  | zero => rfl
  | succ n => exact if_pos BitVec.zero_and

/-- No cell has an index above 63 (R8). -/
theorem bit_eq_zero {e : Nat} (he : 64 ≤ e) : bit e = 0 := BitVec.shiftLeft_eq_zero he

/-- R130, 90_conflicts.md C18: stages after the seventh change no walk. -/
theorem walkStages_eq_walkLength (d : Direction) (o : Word) (e : Nat) {n : Nat} (hn : 7 ≤ n) :
    walkStages d o n 0 (sh d (bit e)) = walkStages d o walkLength 0 (sh d (bit e)) := by
  by_cases he : e < 64
  · obtain ⟨k, hk, hrun⟩ := exists_runLength he o d
    rw [walkStages_of_runLength he hrun (hk.trans hn), walkStages_of_runLength he hrun (show k ≤ walkLength from hk)]
  · rw [bit_eq_zero (Nat.le_of_not_lt he), sh_zero, walkStages_zero, walkStages_zero]

/-! ### The flip set and the definition (R130) -/

/-- R130: a lane answers its run when the first cell after it is a mover cell. -/
theorem laneFlips_of_runLength {e : Nat} (he : e < 64) (m : Word) {o : Word} {d : Direction} {k : Nat} (hk : k ≤ 7)
    (hrun : RunLength o d e k) :
    laneFlips m o (bit e) d = if occupiedAt m e d (k + 1) = true then lineCells d e k else 0 := by
  rw [laneFlips, walkStages_of_runLength he hrun (show k ≤ walkLength from hk)]
  simp only [iterate_sh_bit_and_eq_zero_iff he]
  cases occupiedAt m e d (k + 1) <;> rfl

theorem getLsbD_laneFlips {e : Nat} (he : e < 64) (m o : Word) (d : Direction) (i : Nat) :
    (laneFlips m o (bit e) d).getLsbD i = true ↔
      ∃ k, RunLength o d e k ∧ occupiedAt m e d (k + 1) = true ∧ ∃ j, 1 ≤ j ∧ j ≤ k ∧ cellAt e d j = some i := by
  obtain ⟨k, hk, hrun⟩ := exists_runLength he o d
  rw [laneFlips_of_runLength he m hk hrun]
  constructor
  · intro h
    split at h
    case isTrue hm => exact ⟨k, hrun, hm, (getLsbD_lineCells he d k i).1 h⟩
    case isFalse => simp at h
  · rintro ⟨k', hrun', hm, hcell⟩
    obtain rfl := hrun.unique hrun'
    rw [if_pos hm]
    exact (getLsbD_lineCells he d _ i).2 hcell

theorem capturedBy_iff {m o : Word} {e i : Nat} : CapturedBy m o e i ↔ ∃ d k, RunLength o d e k ∧
    occupiedAt m e d (k + 1) = true ∧ ∃ j, 1 ≤ j ∧ j ≤ k ∧ cellAt e d j = some i := by
  simp only [CapturedBy, RunLength, and_assoc]

/-- R130: FL holds exactly the captured cells. -/
theorem getLsbD_flips_iff_flippedBy (m o x : Word) (i : Nat) : (flips m o x).getLsbD i = true ↔ FlippedBy m o x i := by
  rw [getLsbD_flips, single_iff]
  constructor
  · rintro ⟨⟨e, he, rfl⟩, d, hd⟩
    exact ⟨e, he, rfl, capturedBy_iff.2 ⟨d, (getLsbD_laneFlips he m o d i).1 hd⟩⟩
  · rintro ⟨e, he, rfl, hcap⟩
    obtain ⟨d, hd⟩ := capturedBy_iff.1 hcap
    exact ⟨⟨e, he, rfl⟩, d, (getLsbD_laneFlips he m o d i).2 hd⟩

theorem flips_eq_zero_iff (m o x : Word) : flips m o x = 0 ↔ ∀ i, ¬FlippedBy m o x i := by
  simp only [eq_zero_iff_getLsbD, ← getLsbD_flips_iff_flippedBy, Bool.not_eq_true]

/-- R130: an operand that is not a single bit is no move. -/
theorem flips_of_popcount_ne_one (m o : Word) {x : Word} (hx : popcount x ≠ 1) : flips m o x = 0 := by
  rw [flips, if_neg (by simpa [single] using hx)]

/-- Settles O44: each chain ends its run, which is at most seven cells long. -/
theorem flipSetIsTheCapturedCells : Obligations.FlipSetIsTheCapturedCells :=
  ⟨getLsbD_flips_iff_flippedBy, fun m o _ => flips_of_popcount_ne_one m o, fun d o e _ => walkStages_eq_walkLength d o e⟩

/-! ### Laws of FL (R131) -/

/-- Two bitboards have no cell in common exactly when no cell of the one is a cell of the other. -/
theorem and_eq_zero_iff (a b : Word) : a &&& b = 0 ↔ ∀ i, a.getLsbD i = true → b.getLsbD i = false := by
  simp only [eq_zero_iff_getLsbD, BitVec.getLsbD_and, Bool.and_eq_false_imp]

/-- R131: a flipped cell is an other cell. -/
theorem FlippedBy.other {m o x : Word} {i : Nat} (h : FlippedBy m o x i) : o.getLsbD i = true := by
  obtain ⟨e, -, -, d, k, hrun, -, -, j, hj, hjk, hcell⟩ := h
  rw [← occupiedAt_of_cellAt o hcell]
  exact hrun j hj hjk

/-- R131: the move's own cell is not flipped. -/
theorem FlippedBy.not_move {m o x : Word} {i : Nat} (h : FlippedBy m o x i) : x.getLsbD i = false := by
  obtain ⟨e, -, rfl, d, k, -, -, -, j, hj, -, hcell⟩ := h
  have hne : i ≠ e := by
    rintro rfl
    have := eq_zero_of_cellAt_self hcell
    omega
  simp [getLsbD_bit, hne]

theorem flips_and_not_other (m o x : Word) : flips m o x &&& ~~~o = 0 := by
  rw [and_eq_zero_iff]
  intro i hi
  simp [((getLsbD_flips_iff_flippedBy m o x i).1 hi).other]

theorem flips_and_move (m o x : Word) : flips m o x &&& x = 0 := by
  rw [and_eq_zero_iff]
  exact fun i hi => ((getLsbD_flips_iff_flippedBy m o x i).1 hi).not_move

/-- On a pair that meets I1 a mover cell is not an other cell. -/
theorem occupiedAt_other_of_mover {m o : Word} (hI1 : m &&& o = 0) {e : Nat} {d : Direction} {j : Nat}
    (hm : occupiedAt m e d j = true) : occupiedAt o e d j = false := by
  obtain ⟨c, hc, hbit⟩ := (occupiedAt_eq_true_iff ..).1 hm
  rw [occupiedAt_of_cellAt o hc]
  exact (and_eq_zero_iff m o).1 hI1 c hbit

/-- R131: on a pair that meets I1, the move on an empty cell captures a cell exactly when the cell is a legal destination; the
captured cell is then the neighbour in some direction. -/
theorem exists_capturedBy_iff {m o : Word} (hI1 : m &&& o = 0) {e : Nat} (hempty : (empty m o).getLsbD e = true) :
    (∃ i, CapturedBy m o e i) ↔ LegalDestination m o e := by
  constructor
  · rintro ⟨i, d, k, hrun, -, hm, j, hj, hjk, -⟩
    exact ⟨hempty, d, k, hj.trans hjk, hrun, hm⟩
  · rintro ⟨-, d, k, hk, hrun, hm⟩
    obtain ⟨i, hcell, -⟩ := (occupiedAt_eq_true_iff ..).1 (hrun 1 le_rfl hk)
    exact ⟨i, d, k, hrun, occupiedAt_other_of_mover hI1 hm, hm, 1, le_rfl, hk, hcell⟩

/-- Only the cell itself counts for a single-cell operand. -/
theorem flippedBy_bit {m o : Word} {e : Nat} (he : e < 64) (i : Nat) : FlippedBy m o (bit e) i ↔ CapturedBy m o e i := by
  constructor
  · rintro ⟨e', -, heq, hcap⟩
    exact bit_injective he heq ▸ hcap
  · exact fun hcap => ⟨e, he, rfl, hcap⟩

theorem legalMove_bit {m o : Word} {e : Nat} (he : e < 64) : LegalMove m o (bit e) ↔ LegalDestination m o e := by
  constructor
  · rintro ⟨e', -, heq, hdest⟩
    exact bit_injective he heq ▸ hdest
  · exact fun hdest => ⟨e, he, rfl, hdest⟩

/-- R131: on a pair that meets I1, a move on an empty cell flips a cell exactly when it is legal. -/
theorem flips_bit_ne_zero_iff {m o : Word} (hI1 : m &&& o = 0) {e : Nat} (he : e < 64)
    (hempty : (empty m o).getLsbD e = true) : flips m o (bit e) ≠ 0 ↔ legal m o (bit e) = true := by
  rw [legal_iff_legalMove, legalMove_bit he, ← exists_capturedBy_iff hI1 hempty, Ne, flips_eq_zero_iff, not_forall_not]
  exact exists_congr fun i => flippedBy_bit he i

/-- The exceptions that R131 shows: legal without a flip when the boards overlap, a flip without being legal on an occupied cell. -/
theorem flips_exceptions :
    (flips 0x18000000 0x1C000000 (bit 25) = 0 ∧ legal 0x18000000 0x1C000000 (bit 25) = true) ∧
      (flips 0x9 0x6 (bit 1) = bit 2 ∧ legal 0x9 0x6 (bit 1) = false) := by decide

/-- Settles O45: the laws by the walks' cells, the exceptions by evaluation. -/
theorem flipSetLaws : Obligations.FlipSetLaws := by
  obtain ⟨hoverlap, hoccupied⟩ := flips_exceptions
  exact ⟨fun m o x => ⟨flips_and_not_other m o x, flips_and_move m o x, flips_of_popcount_ne_one m o⟩,
    fun _ _ _ hI1 he hempty => flips_bit_ne_zero_iff hI1 he hempty, hoverlap, hoccupied⟩

end Sys2Proof.Machine
end

section
/-! PROOFS. The statements about FLIP and APPLY (43_flip_and_apply.md R132 to R135). -/

namespace Sys2Proof.Machine

/-! ### The flags of a move -/

/-- What FLIP and APPLY leave in STATUS, from the state before (R133, R134). -/
def moveStatus (s : State) : Word :=
  setFlagIf (setFlagIf (putFlag (putFlag s.STATUS .Z (flips s.M s.O s.X == 0)) .LG (legal s.M s.O s.X)) .PV
    (!legal s.M s.O s.X)) .IV (overlaps s.M s.O)

/-- Z: there is no captured cell. -/
theorem getFlag_moveStatus_Z (s : State) : getFlag (moveStatus s) .Z = true ↔ ∀ i, ¬FlippedBy s.M s.O s.X i := by
  rw [← flips_eq_zero_iff]
  simp [moveStatus]

/-- LG: the move is legal. -/
theorem getFlag_moveStatus_LG (s : State) : getFlag (moveStatus s) .LG = true ↔ LegalMove s.M s.O s.X := by
  rw [← legal_iff_legalMove]
  simp [moveStatus]

/-- PV is set by a move that is not legal (R172) and otherwise kept. -/
theorem getFlag_moveStatus_PV (s : State) :
    getFlag (moveStatus s) .PV = true ↔ getFlag s.STATUS .PV = true ∨ ¬LegalMove s.M s.O s.X := by
  rw [← legal_iff_legalMove]
  simp [moveStatus, or_comm]

/-- IV is set by a pair that breaks I1 (R173) and otherwise kept. -/
theorem getFlag_moveStatus_IV (s : State) :
    getFlag (moveStatus s) .IV = true ↔ getFlag s.STATUS .IV = true ∨ s.M &&& s.O ≠ 0 := by
  rw [moveStatus, getFlag_setFlagIf_overlaps]
  simp

theorem onlyFlags_moveStatus (s : State) : OnlyFlags [.Z, .LG, .PV, .IV] s.STATUS (moveStatus s) :=
  ((((OnlyFlags.refl _ _).putFlag_of_mem (by simp) _).putFlag_of_mem (by simp) _).setFlagIf_of_mem (by simp) _).setFlagIf_of_mem
    (by simp) _

/-! ### FLIP -/

/-- FLIP's next state (R133). -/
theorem exec_flip (s : State) :
    exec .flip s = .next { s with F := flips s.M s.O s.X, STATUS := moveStatus s } := rfl

/-- Settles O46: F is FL, and the flags are those of the move. -/
theorem flipWritesTheCapturedCells : Obligations.FlipWritesTheCapturedCells :=
  ⟨fun s => ⟨_, exec_flip s, getLsbD_flips_iff_flippedBy s.M s.O s.X, getFlag_moveStatus_Z s, getFlag_moveStatus_LG s,
    getFlag_moveStatus_PV s, getFlag_moveStatus_IV s, onlyFlags_moveStatus s, rfl⟩, decodeWord_eq_ok_iff_eq rfl rfl⟩

/-! ### APPLY -/

/-- APPLY's next state (R132, R134). -/
theorem exec_apply (s : State) :
    exec .apply s = .next { s with
      M := s.M ||| s.X ||| flips s.M s.O s.X, O := s.O &&& ~~~flips s.M s.O s.X, F := flips s.M s.O s.X
      STATUS := moveStatus s } := rfl

/-- Settles O47: F is FL, the boards are MK, and the flags are those of the move on the boards from before. -/
theorem applyPlaysTheMove : Obligations.ApplyPlaysTheMove :=
  ⟨fun s => ⟨_, exec_apply s, getLsbD_flips_iff_flippedBy s.M s.O s.X, rfl, rfl, getFlag_moveStatus_Z s,
    getFlag_moveStatus_LG s, getFlag_moveStatus_PV s, getFlag_moveStatus_IV s, onlyFlags_moveStatus s, rfl⟩,
    decodeWord_eq_ok_iff_eq rfl rfl⟩

/-! ### Conservation (R135) -/

/-- Boards without a common cell add up, as both leave the same cells empty as their union does. -/
theorem popcount_or {a b : Word} (h : a &&& b = 0) : popcount (a ||| b) = popcount a + popcount b := by
  have hparts := (cellCountsSumTo64ExactlyWhenDisjoint a b).2.2 h
  have hunion := (cellCountsSumTo64ExactlyWhenDisjoint (a ||| b) 0).2.2 BitVec.and_zero
  have hempty : empty (a ||| b) 0 = empty a b := congrArg (~~~·) BitVec.or_zero
  rw [hempty, (popcount_eq_zero_iff 0).2 rfl] at hunion
  omega

/-- Taking away cells that a board has takes as many from its count. -/
theorem popcount_and_not {a b : Word} (h : b &&& ~~~a = 0) : popcount (a &&& ~~~b) + popcount b = popcount a := by
  have hdisjoint : a &&& ~~~b &&& b = 0 := by
    rw [BitVec.and_assoc, BitVec.and_comm (~~~b), BitVec.and_not_self]
    exact BitVec.and_zero
  have hunion : a &&& ~~~b ||| b = a := by
    rw [and_eq_zero_iff] at h
    apply BitVec.eq_of_getLsbD_eq
    intro i hi
    cases hb : b.getLsbD i with
    | false =>
      rw [BitVec.getLsbD_or, BitVec.getLsbD_and, BitVec.getLsbD_not, hb, decide_eq_true hi]
      simp
    | true =>
      have ha : a.getLsbD i = true := by simpa [hi] using h i hb
      simp [ha, hb]
  rw [← popcount_or hdisjoint, hunion]

/-- R113: a legal move is on a cell that neither side holds. -/
theorem LegalMove.and_boards {m o x : Word} (h : LegalMove m o x) : x &&& (m ||| o) = 0 := by
  obtain ⟨e, he, rfl, hempty, -⟩ := h
  rw [bit_and, if_neg]
  simpa [empty, he] using hempty

theorem LegalMove.popcount_eq_one {m o x : Word} (h : LegalMove m o x) : popcount x = 1 := by
  obtain ⟨e, he, rfl, -⟩ := h
  simpa [single] using single_bit he

/-- R131: a legal move on a pair that meets I1 flips a cell. -/
theorem LegalMove.flips_ne_zero {m o x : Word} (h : LegalMove m o x) (hI1 : m &&& o = 0) : flips m o x ≠ 0 := by
  have hlegal := (legal_iff_legalMove m o x).2 h
  obtain ⟨e, he, rfl, hempty, -⟩ := h
  exact (flips_bit_ne_zero_iff hI1 he hempty).2 hlegal

/-- The mover holds none of the captured cells of a pair that meets I1. -/
theorem flips_and_mover {m o : Word} (hI1 : m &&& o = 0) (x : Word) : m &&& flips m o x = 0 := by
  rw [and_eq_zero_iff] at hI1 ⊢
  intro i hm
  by_contra hf
  have hother := ((getLsbD_flips_iff_flippedBy m o x i).1 (by simpa using hf)).other
  exact absurd hother (by simp [hI1 i hm])

/-- R135: a legal move leaves the boards disjoint. -/
theorem LegalMove.boards_disjoint {m o x : Word} (h : LegalMove m o x) (hI1 : m &&& o = 0) :
    (m ||| x ||| flips m o x) &&& (o &&& ~~~flips m o x) = 0 := by
  have hx := h.and_boards
  rw [and_eq_zero_iff] at hx hI1 ⊢
  intro i hi
  simp only [BitVec.getLsbD_or, Bool.or_eq_true, Bool.or_eq_false_iff] at hi hx
  rw [BitVec.getLsbD_and, BitVec.getLsbD_not]
  obtain (hm | hmove) | hf := hi
  · simp [hI1 i hm]
  · simp [(hx i hmove).2]
  · simp [hf]

/-- R135: a legal move gives the mover its own cell and the captured cells. -/
theorem LegalMove.popcount_mover {m o x : Word} (h : LegalMove m o x) (hI1 : m &&& o = 0) :
    popcount (m ||| x ||| flips m o x) = popcount m + 1 + popcount (flips m o x) := by
  have hmx : m &&& x = 0 := by
    have hx := h.and_boards
    rw [and_eq_zero_iff] at hx ⊢
    intro i hm
    by_contra hmove
    exact absurd (hx i (by simpa using hmove)) (by simp [hm])
  have hf : (m ||| x) &&& flips m o x = 0 := by
    rw [BitVec.and_or_distrib_right, flips_and_mover hI1, BitVec.and_comm x, flips_and_move]
    rfl
  rw [popcount_or hf, popcount_or hmx, h.popcount_eq_one]

/-- Settles O48: the sides' counts by the cells each gains or loses, the empty cells' by the sum of 64. -/
theorem legalApplyConservesTheBoard : Obligations.LegalApplyConservesTheBoard := by
  intro s hI1 hlegal
  have hmove : LegalMove s.M s.O s.X := (legal_iff_legalMove ..).1 hlegal
  refine ⟨_, exec_apply s, ?_⟩
  have hdisjoint := hmove.boards_disjoint hI1
  have hmover := hmove.popcount_mover hI1
  have hother := popcount_and_not (flips_and_not_other s.M s.O s.X)
  have hflips : popcount (flips s.M s.O s.X) ≠ 0 := mt (popcount_eq_zero_iff _).1 (hmove.flips_ne_zero hI1)
  have hbefore := (cellCountsSumTo64ExactlyWhenDisjoint s.M s.O).2.2 hI1
  have hafter := (cellCountsSumTo64ExactlyWhenDisjoint _ _).2.2 hdisjoint
  exact ⟨hdisjoint, hmover, hother, by dsimp only; omega, hafter, by omega⟩

end Sys2Proof.Machine
end

section
/-! PROOFS. The statements about the host's search: its leaves, and the moves and scores its loop can answer (49_host_search.md R150 to
R157, R159). -/

namespace Sys2Proof.Machine

variable {P : SearchParams} {bound : Int}

/-! ### The nodes (R152, R153) -/

section
variable {m o : Word}

theorem searchNode_of_moves (playable : Searcher) (h : getMoves m o ≠ 0) (alpha beta : Int) :
    searchNode P playable m o alpha beta = playable m o alpha beta := if_neg h

theorem searchNode_terminal (playable : Searcher) (h : getMoves m o = 0) (hother : getMoves o m = 0) (alpha beta : Int) :
    searchNode P playable m o alpha beta = ⟨0, P.terminal m o⟩ := (if_pos h).trans (if_pos hother)

theorem searchNode_pass (playable : Searcher) (h : getMoves m o = 0) (hother : getMoves o m ≠ 0) (alpha beta : Int) :
    searchNode P playable m o alpha beta =
      ⟨0, -(playable o m (P.passWindow alpha beta).1 (P.passWindow alpha beta).2).score⟩ := (if_pos h).trans (if_neg hother)

/-- R152, R153: a mover without a move is answered no move, whether the node is terminal or a pass. -/
theorem searchNode_move_of_no_moves (playable : Searcher) (h : getMoves m o = 0) (alpha beta : Int) :
    (searchNode P playable m o alpha beta).move = 0 := by
  by_cases hother : getMoves o m = 0
  · rw [searchNode_terminal playable h hother]
  · rw [searchNode_pass playable h hother]

end

/-- Settles O49: the three kinds of node, and that every negative depth is searched as depth 0. -/
theorem searchLeavesFollowTheContract : Obligations.SearchLeavesFollowTheContract := by
  intro P m o depth alpha beta
  refine ⟨fun h hother => searchNode_terminal _ h hother .., fun h hother => ?_, fun h => ?_, fun hdepth => ?_⟩
  · have hchild := searchNode_of_moves (P := P) (searchPlayable P depth.toNat) hother
    rw [negamax, negamax, searchNode_pass _ h hother, hchild]
  · rw [negamax, searchNode_of_moves _ h]
    rfl
  · rw [negamax, negamax, Int.toNat_of_nonpos hdepth.le, Int.toNat_zero]

/-! ### One turn of the loop (R155) -/

/-- The score R155 gives a move: the negated score of the position after it, from the opponent's side. -/
def moveScore (child : Searcher) (m o b : Word) (alpha beta : Int) : Int :=
  -(child (makeMove m o b).2 (makeMove m o b).1 (-beta) (-alpha)).score

/-- R155's strict comparison: a move replaces the best one only with a greater score. -/
def keepBest (best : SearchResult) (b : Word) (score : Int) : SearchResult :=
  if score > best.score then ⟨b, score⟩ else best

/-- R155: alpha is raised to the best score where that is greater. -/
def raiseAlpha (alpha score : Int) : Int := if score > alpha then score else alpha

section
variable {child : Searcher} {m o rest : Word} {fuel : Nat} {alpha beta : Int} {best : SearchResult}

/-- One turn compares the lowest move left with the best one and raises alpha to the best score; then a cutoff stops the loop, or it goes
on with the other moves. -/
theorem searchMoves_succ (hrest : rest ≠ 0) {best' : SearchResult}
    (hbest' : keepBest best (lsb rest) (moveScore child m o (lsb rest) alpha beta) = best') :
    searchMoves child m o (fuel + 1) rest alpha beta best =
      if raiseAlpha alpha best'.score ≥ beta then best'
      else searchMoves child m o fuel (rest &&& ~~~lsb rest) (raiseAlpha alpha best'.score) beta best' := by
  subst hbest'
  exact if_neg hrest

/-- R114: the lowest cell of a set of legal destinations is a legal move. -/
theorem legal_lsb (hrest : rest ≠ 0) (hsub : cells rest ⊆ cells (getMoves m o)) : legal m o (lsb rest) = true := by
  have hmem : ctz rest ∈ cells rest := mem_cells.2 (getLsbD_ctz hrest).1
  exact (legalIsMembershipOfASingleBit ..).2 ⟨ctz rest, ctz_lt hrest, lsb_eq_bit_ctz rest, mem_cells.1 (hsub hmem)⟩

theorem cells_and_not_lsb_subset (hsub : cells rest ⊆ cells (getMoves m o)) :
    cells (rest &&& ~~~lsb rest) ⊆ cells (getMoves m o) := fun _ h => hsub (mem_cells_and_not_lsb.1 h).1

/-! ### What the loop answers -/

variable {Q : SearchResult → Prop}

/-- What holds of the best result so far and of every legal move with its score holds of the loop's answer. -/
theorem searchMoves_keeps (hmove : ∀ b alpha beta, legal m o b = true → Q ⟨b, moveScore child m o b alpha beta⟩)
    (hsub : cells rest ⊆ cells (getMoves m o)) (hbest : Q best) : Q (searchMoves child m o fuel rest alpha beta best) := by
  induction fuel generalizing rest alpha best with
  | zero => exact hbest
  | succ fuel ih =>
    by_cases hrest : rest = 0
    · rwa [searchMoves, if_pos hrest]
    have hkept : Q (keepBest best (lsb rest) (moveScore child m o (lsb rest) alpha beta)) := by
      rw [keepBest]
      split
      case isTrue => exact hmove _ _ _ (legal_lsb hrest hsub)
      case isFalse => exact hbest
    rw [searchMoves_succ hrest rfl]
    split
    case isTrue => exact hkept
    case isFalse => exact ih (cells_and_not_lsb_subset hsub) hkept

/-- Where every legal move scores above the initial best, the first one replaces it: the loop's answer is a legal move with its score. -/
theorem searchMoves_of_lt_moveScore (hmove : ∀ b alpha beta, legal m o b = true → Q ⟨b, moveScore child m o b alpha beta⟩)
    (habove : ∀ b alpha beta, legal m o b = true → best.score < moveScore child m o b alpha beta)
    (hsub : cells rest ⊆ cells (getMoves m o)) (hrest : rest ≠ 0) :
    Q (searchMoves child m o (fuel + 1) rest alpha beta best) := by
  have hlegal := legal_lsb hrest hsub
  have hfirst : keepBest best (lsb rest) (moveScore child m o (lsb rest) alpha beta) =
      ⟨lsb rest, moveScore child m o (lsb rest) alpha beta⟩ := if_pos (habove _ _ _ hlegal)
  rw [searchMoves_succ hrest hfirst]
  split
  case isTrue => exact hmove _ _ _ hlegal
  case isFalse => exact searchMoves_keeps hmove (cells_and_not_lsb_subset hsub) (hmove _ _ _ hlegal)

end

/-! ### The move returned (R150, R157) -/

theorem searchPlayable_move_zero_or_legal (depth : Nat) (m o : Word) (alpha beta : Int) :
    (searchPlayable P depth m o alpha beta).move = 0 ∨ legal m o (searchPlayable P depth m o alpha beta).move = true := by
  cases depth with
  | zero => exact moveAtDepthZero_zero_or_legal P m o
  | succ depth =>
    exact searchMoves_keeps (Q := fun r => r.move = 0 ∨ legal m o r.move = true) (fun _ _ _ h => .inr h)
      (List.Subset.refl _) (.inl rfl)

/-- Settles O51: a mover without a move is answered none; otherwise by what depth 0 and the loop of R155 answer. -/
theorem searchMoveIsZeroOrLegal : Obligations.SearchMoveIsZeroOrLegal := by
  intro P m o depth alpha beta
  rw [negamax]
  by_cases h : getMoves m o = 0
  · exact .inl (searchNode_move_of_no_moves _ h ..)
  · rw [searchNode_of_moves _ h]
    exact searchPlayable_move_zero_or_legal ..

/-! ### Scores within the contract's bound, and the move at a positive depth (R157, R159 P3) -/

/-- The score is one the contract's bound allows (R155: NEG_INF is below it). -/
def SearchResult.Within (bound : Int) (r : SearchResult) : Prop := -bound ≤ r.score ∧ r.score ≤ bound

theorem SearchResult.Within.neg {r : SearchResult} (h : r.Within bound) (move : Word) : Within bound ⟨move, -r.score⟩ :=
  ⟨Int.neg_le_neg h.2, Int.neg_le_of_neg_le h.1⟩

theorem searchNode_within (hP : P.Meets bound) {playable : Searcher}
    (hplayable : ∀ m o alpha beta, getMoves m o ≠ 0 → (playable m o alpha beta).Within bound) (m o : Word) (alpha beta : Int) :
    (searchNode P playable m o alpha beta).Within bound := by
  by_cases h : getMoves m o = 0
  · by_cases hother : getMoves o m = 0
    · rw [searchNode_terminal _ h hother]
      exact hP.terminal_bounded m o
    · rw [searchNode_pass _ h hother]
      exact (hplayable _ _ _ _ hother).neg 0
  · rw [searchNode_of_moves _ h]
    exact hplayable _ _ _ _ h

/-- A node over children whose scores are within the bound: NEG_INF is below the first move's score, so the answer is a legal move,
and its score is within the bound again. -/
theorem searchPlayable_succ_legal_within (hP : P.Meets bound) {depth : Nat}
    (hchild : ∀ m o alpha beta, (searchNode P (searchPlayable P depth) m o alpha beta).Within bound)
    {m o : Word} (h : getMoves m o ≠ 0) (alpha beta : Int) :
    legal m o (searchPlayable P (depth + 1) m o alpha beta).move = true ∧
      (searchPlayable P (depth + 1) m o alpha beta).Within bound := by
  have hmove (b : Word) (alpha beta : Int) :
      SearchResult.Within bound ⟨b, moveScore (searchNode P (searchPlayable P depth)) m o b alpha beta⟩ :=
    (hchild _ _ _ _).neg b
  exact searchMoves_of_lt_moveScore (Q := fun r => legal m o r.move = true ∧ r.Within bound)
    (fun b alpha beta hlegal => ⟨hlegal, hmove b alpha beta⟩)
    (fun b alpha beta _ => hP.negInf_below.trans_le (hmove b alpha beta).1) (List.Subset.refl _) h

/-- Every depth keeps the scores within the bound, from EVAL's at depth 0 on. -/
theorem searchPlayable_within (hP : P.Meets bound) (depth : Nat) (m o : Word) (alpha beta : Int) (h : getMoves m o ≠ 0) :
    (searchPlayable P depth m o alpha beta).Within bound := by
  induction depth generalizing m o alpha beta with
  | zero => exact hP.eval_bounded m o
  | succ depth ih => exact (searchPlayable_succ_legal_within hP (searchNode_within hP ih) h alpha beta).2

/-- Settles O50: the children's scores are within the bound at every depth, so the first legal move replaces the initial best. -/
theorem searchReturnsALegalMove : Obligations.SearchReturnsALegalMove := by
  intro P bound hP m o depth alpha beta
  refine ⟨fun h hdepth => ?_, fun h => searchNode_move_of_no_moves _ h ..⟩
  obtain ⟨n, hn⟩ : ∃ n, depth.toNat = n + 1 := Nat.exists_eq_add_one.2 (Int.lt_toNat.2 hdepth)
  rw [negamax, searchNode_of_moves _ h, hn]
  exact (searchPlayable_succ_legal_within hP (searchNode_within hP (searchPlayable_within hP n)) h alpha beta).1

end Sys2Proof.Machine
end

section
/-! PROOFS. The statements about errors: the block never stops, an illegal command sets IC only, and no flag holds up a command
(60_exceptions.md R170 to R185). -/

namespace Sys2Proof.Machine

/-! ### No step stops the block (R170, R185) -/

/-- A step with no event pending does nothing (R185; notes/assumptions/3.md). -/
theorem step_idle {s : State} (hp : s.pending = []) : step s = .next s := by
  simp only [step, performNext, hp]

/-- Settles O14, by the step's own rule for an idle port. -/
theorem idlePortChangesNothing : Obligations.IdlePortChangesNothing := fun _ => step_idle

/-- Every step answers a next state: an idle port keeps the state, and a pending event is taken (R170). -/
theorem step_completes (s : State) : ∃ t, step s = .next t := by
  cases hp : s.pending with
  | nil => exact ⟨s, step_idle hp⟩
  | cons e rest =>
    obtain ⟨t, -, h, -⟩ := step_takes_first hp
    exact ⟨t, h⟩

/-- Settles O15, by induction on the number of steps, each of which completes from whatever state it starts in. -/
theorem blockNeverStops : Obligations.BlockNeverStops := by
  intro n
  induction n with
  | zero => exact fun s => ⟨s, rfl⟩
  | succ n ih =>
    intro s
    obtain ⟨u, hu⟩ := step_completes s
    obtain ⟨t, ht⟩ := ih u
    exact ⟨t, (run_succ hu n).trans ht⟩

/-! ### Illegal commands (R171) -/

/-- IC2 to IC7 of R171 on the four fields of a word. -/
def IllegalFields (op : BitVec 4) (src dst : BitVec 3) (rsv : BitVec 22) : Prop :=
  rsv ≠ 0 ∨ op.toNat ∈ [13, 14, 15] ∨ (op = 3 ∧ src = 7) ∨ (op = 3 ∧ dst.toNat ∈ [6, 7]) ∨
    (op.toNat ∈ [5, 6] ∧ (src = 7 ∨ dst ≠ 0)) ∨ (op.toNat ∉ [3, 5, 6] ∧ (src ≠ 0 ∨ dst ≠ 0))

/-- No cause of R171 holds of fields that R72 allows. -/
theorem LegalFields.not_illegalFields {op : BitVec 4} {src dst : BitVec 3} {rsv : BitVec 22}
    (h : LegalFields op src dst rsv) : ¬IllegalFields op src dst rsv := by
  obtain ⟨hrsv, hop, hmov, hcount, hplain⟩ := h
  simp only [toNat_eq_zero_iff, toNat_le_six_iff] at hmov hcount hplain
  intro hill
  simp only [IllegalFields, List.mem_cons, List.not_mem_nil, or_false, not_or] at hill
  obtain h | h | ⟨rfl, h⟩ | ⟨rfl, h⟩ | ⟨hop', h⟩ | ⟨hop', h⟩ := hill
  · exact h hrsv
  · omega
  · exact (hmov rfl).1 h
  · have hdst := (hmov rfl).2
    omega
  · obtain ⟨hsrc, hdst⟩ := hcount hop'
    exact h.elim hsrc (absurd hdst)
  · obtain ⟨hne3, hne5, hne6⟩ := hop'
    obtain ⟨hsrc, hdst⟩ := hplain hne3 hne5 hne6
    exact h.elim (absurd hsrc) (absurd hdst)

/-- A CMD write value that meets one of IC1 to IC7 decodes to no command. -/
theorem exists_decodeCmd_error {v : Word}
    (h : highHalf v ≠ 0 ∨
      IllegalFields (v.extractLsb' 0 4) (v.extractLsb' 4 3) (v.extractLsb' 7 3) (v.extractLsb' 10 22)) :
    ∃ c, decodeCmd v = .error c := by
  cases hd : decodeCmd v with
  | error c => exact ⟨c, rfl⟩
  | ok i =>
    obtain ⟨hrsv, hhigh, hfields⟩ := (legalWordsAreThoseOfR72 v).1.1 ⟨i, hd⟩
    obtain hne | hill := h
    · exact absurd hhigh hne
    · exact absurd hill (LegalFields.not_illegalFields ⟨hrsv, hfields⟩)

/-- A step whose next event is a CMD write of an illegal value records it and answers the write (R171). -/
theorem step_illegal_cmdWrite {s : State} {v : Word} {rest : List PortEvent} {c : IllegalCause}
    (hp : s.pending = .access (cmdWrite v) :: rest) (hd : decodeCmd v = .error c) :
    step s = .next (answer .done (recordIllegal { s with pending := rest })) := by
  rw [step_cmdWrite hp, issueCommand, hd]
  rfl

/-- Settles O16: each cause is against R72, so the step is the record of an illegal command. -/
theorem illegalCommandSetsIcOnly : Obligations.IllegalCommandSetsIcOnly := by
  intro s v rest hp hcause
  obtain ⟨c, hd⟩ := exists_decodeCmd_error hcause
  obtain ⟨hic, honly, -⟩ := recordIllegal_effect { s with pending := rest }
  exact ⟨_, step_illegal_cmdWrite hp hd, hic, honly, rfl⟩

/-! ### STATUS and the commands (R178) -/

/-- STATUS shows in no register. -/
theorem readReg_with_status (s : State) (st : Word) (r : Reg) : readReg { s with STATUS := st } r = readReg s r := by
  cases r <;> rfl

/-- A register takes a write whatever STATUS is. -/
theorem writeReg_with_status (s : State) (st : Word) (r : Reg) (v : Word) :
    writeReg { s with STATUS := st } r v = { writeReg s r v with STATUS := st } := by
  cases r <;> rfl

/-- A command started with another STATUS does the same to everything but STATUS (R178). -/
theorem exec_with_status {i : Instr} {s t : State} (h : exec i s = .next t) (st : Word) :
    ∃ st', exec i { s with STATUS := st } = .next { t with STATUS := st' } := by
  cases i with
  | mov dst src =>
    by_cases hdst : dst = .E
    · subst hdst
      cases h
      exact ⟨_, rfl⟩
    · obtain rfl := Host.Outcome.next.inj ((exec_mov hdst src s).symm.trans h)
      exact ⟨st, by rw [exec_mov hdst, readReg_with_status, writeReg_with_status]⟩
  | popcnt src | bitidx src =>
    cases h
    simp only [exec, execPopcnt, execBitidx, readReg_with_status]
    exact ⟨_, rfl⟩
  | _ => cases h; exact ⟨_, rfl⟩

/-- Settles O23, by `exec_with_status`. -/
theorem statusBlocksNoCommand : Obligations.StatusBlocksNoCommand := by
  intro i s st
  obtain ⟨t, ht⟩ := exec_completes i s
  obtain ⟨st', hu⟩ := exec_with_status ht st
  exact ⟨t, _, ht, hu, rfl⟩

/-! ### The term MOV E, src (notes/assumptions/11.md) -/

/-- MOV into E is recorded as an illegal command (R171 IC5). -/
theorem exec_mov_E (src : Reg) (s : State) : exec (.mov .E src) s = .next (recordIllegal s) := rfl

/-- The record of an illegal command joins IC's bit to STATUS (R25, R171). -/
theorem recordIllegal_eq (s : State) : recordIllegal s = { s with STATUS := s.STATUS ||| 0x400 } := rfl

/-- Settles O31: only well-formed commands have a word (`wellFormed_of_decodeWord`), and this term is not one. -/
theorem movToTheVirtualRegisterIsIllegal : Obligations.MovToTheVirtualRegisterIsIllegal := by
  intro src s
  refine ⟨fun w hw => ?_, by rw [exec_mov_E, recordIllegal_eq]⟩
  have hwf : (Instr.mov .E src).wellFormed = true := wellFormed_of_decodeWord hw
  contradiction

end Sys2Proof.Machine
end

section
/-! PROOFS. The statements about the hazards a host has to mind: a board pair that stays disjoint, and results that no command reads
(70_reset_and_hazards.md R194). -/

namespace Sys2Proof.Machine

/-! ### The pair stays disjoint (R194 item 8) -/

/-- I1 is about the boards only. -/
theorem State.I1.of_boards_eq {s t : State} (hs : s.I1) (hM : readReg t .M = readReg s .M)
    (hO : readReg t .O = readReg s .O) : t.I1 :=
  (congrArg₂ (· &&& ·) hM hO).trans hs

/-- The start position meets I1 (R85). -/
theorem start_boards_disjoint : startMover &&& startOther = 0 := by decide

/-- A command that R21 lists as a writer of neither board keeps I1. -/
theorem exec_I1_of_boards_unwritten {i : Instr} {s t : State} (h : exec i s = .next t) (hs : s.I1)
    (hM : writtenByCommand .M i = false) (hO : writtenByCommand .O i = false) : t.I1 :=
  hs.of_boards_eq (exec_readReg h (by decide) hM) (exec_readReg h (by decide) hO)

/-- A host write to a data register other than M and O keeps I1. -/
theorem writeReg_I1 {s : State} {r : Reg} (hs : s.I1) (hr : r ≠ .E) (hM : r ≠ .M) (hO : r ≠ .O) (v : Word) :
    (writeReg s r v).I1 := by
  refine hs.of_boards_eq ?_ ?_
  · rw [readReg_writeReg s r .M v hr (by decide), if_neg hM.symm]
  · rw [readReg_writeReg s r .O v hr (by decide), if_neg hO.symm]

/-- A command keeps I1, but for a MOV into M or O and an APPLY of an illegal move: INIT loads disjoint boards, SWAP keeps the
intersection, a legal APPLY leaves the boards disjoint (R135), and the others write no board. -/
theorem exec_I1 {i : Instr} {s t : State} (h : exec i s = .next t) (hs : s.I1)
    (hmov : ∀ src, i ≠ .mov .M src ∧ i ≠ .mov .O src) (happly : i = .apply → legal s.M s.O s.X = true) : t.I1 := by
  cases i with
  | init => cases h; exact start_boards_disjoint
  | swap => exact ((swapExchangesTheBoards.1 s).2 t h).2 hs
  | mov dst src =>
    obtain ⟨hM, hO⟩ := hmov src
    refine exec_I1_of_boards_unwritten h hs (beq_false_of_ne ?_) (beq_false_of_ne ?_)
    · rintro rfl
      exact hM rfl
    · rintro rfl
      exact hO rfl
  | apply =>
    obtain rfl := Host.Outcome.next.inj ((exec_apply s).symm.trans h)
    have hmove : LegalMove s.M s.O s.X := (legal_iff_legalMove ..).1 (happly rfl)
    exact hmove.boards_disjoint hs
  | _ => exact exec_I1_of_boards_unwritten h hs rfl rfl

/-- Settles O22, by the effect of the step; of these a command (`exec_I1`) and a host write to a register (`writeReg_I1`) can
write a board, and reset empties both. -/
theorem boardStaysDisjoint : Obligations.BoardStaysDisjoint := by
  intro s t hs hsafe h
  simp only [mayBreakI1, not_or, not_exists, not_and] at hsafe
  obtain ⟨hwriteM, hwriteO, hmov, happly⟩ := hsafe
  cases step_effect h with
  | quiet p a => exact hs
  | reset p => exact BitVec.and_zero
  | hostWrite r v p hr hn =>
    have hM : r ≠ .M := by
      rintro rfl
      exact hwriteM hn
    have hO : r ≠ .O := by
      rintro rfl
      exact hwriteO hn
    exact writeReg_I1 (s := { s with pending := p }) hs hr hM hO v
  | command i p u hn _ hu =>
    have hI1 : u.I1 := by
      refine exec_I1 hu hs (fun src => ⟨?_, ?_⟩) ?_
      · rintro rfl
        exact (hmov src).1 hn
      · rintro rfl
        exact (hmov src).2 hn
      · rintro rfl
        exact Bool.eq_true_of_not_eq_false (happly hn)
    exact hI1
  | illegal c p => exact hs

/-! ### Stale results (R194 item 1) -/

/-- The flags of a move do not depend on L or F (R134). -/
theorem moveStatus_with_results (s : State) (l f : Word) : moveStatus { s with L := l, F := f } = moveStatus s := rfl

/-- Settles O24, from each command's next state: CHK and CLASS write STATUS only, and what FLIP and APPLY write is computed from
M, O, X and STATUS. -/
theorem boardCommandsIgnoreStaleResults : Obligations.BoardCommandsIgnoreStaleResults := by
  intro i hi s l f
  simp only [List.mem_cons, List.not_mem_nil, or_false] at hi
  obtain rfl | rfl | rfl | rfl := hi
  · exact ⟨_, _, exec_chk s, exec_chk _, rfl, by simp⟩
  · exact ⟨_, _, exec_classify s, exec_classify _, rfl, by simp⟩
  · refine ⟨_, _, exec_flip s, exec_flip _, ?_, fun _ => rfl⟩
    rw [moveStatus_with_results]
  · refine ⟨_, _, exec_apply s, exec_apply _, ?_, fun _ => rfl⟩
    rw [moveStatus_with_results]

end Sys2Proof.Machine
end
